-- ==== Sys2Proof/Word.lean ====
section
/-! DEFINITION. The word types of the CORE (00_scope.md rule R2): bytes, 16-bit words, and the nibble and
12-bit fields an opcode is cut into (30_encoding.md rule R51). Every value is unsigned (00_scope.md 5.1). -/

namespace Sys2Proof

/-- A general register, a timer, a byte of memory: `XLEN` = `TIMER_LEN` = 8 bits. -/
abbrev Byte := BitVec 8

/-- An opcode, `I`, `pc`, a stack entry, the key latch: 16 bits. -/
abbrev Word := BitVec 16

/-- A 4-bit field: a register number `x`, `y` or a row count `n`. -/
abbrev Nibble := BitVec 4

/-- The 12-bit address field `nnn`. -/
abbrev Addr := BitVec 12

/-- The built-in font: `FONT_BYTES` = 80 bytes (00_scope.md rule R3). -/
abbrev Font := Vector Byte 80

/-- One bit as a register value: a flag write stores 0x00 or 0x01 (10_state.md rule R11). -/
def flagByte (b : Bool) : Byte := if b then 1 else 0

end Sys2Proof
end

