-- ==== Sys2Proof/Syntax.lean ====
section
/-! DEFINITION. The instructions: one constructor per row of spec/opcode_table.json (30_encoding.md rule R55),
in the table's order. Every field the encoding carries is kept, also the `y` that SHR and SHL ignore (R53). -/

namespace Sys2Proof

/-- The 35 instructions of 30_encoding.md rule R55. An UNKNOWN word (R56) is no instruction: see `Decoded`. -/
inductive Instr where
  | sys (nnn : Addr)              -- 0nnn  SYS nnn
  | cls                           -- 00E0  CLS
  | ret                           -- 00EE  RET
  | jp (nnn : Addr)               -- 1nnn  JP nnn
  | call (nnn : Addr)             -- 2nnn  CALL nnn
  | seVxKk (x : Nibble) (kk : Byte)     -- 3xkk  SE Vx, kk
  | sneVxKk (x : Nibble) (kk : Byte)    -- 4xkk  SNE Vx, kk
  | seVxVy (x y : Nibble)         -- 5xy0  SE Vx, Vy
  | ldVxKk (x : Nibble) (kk : Byte)     -- 6xkk  LD Vx, kk
  | addVxKk (x : Nibble) (kk : Byte)    -- 7xkk  ADD Vx, kk
  | ldVxVy (x y : Nibble)         -- 8xy0  LD Vx, Vy
  | orVxVy (x y : Nibble)         -- 8xy1  OR Vx, Vy
  | andVxVy (x y : Nibble)        -- 8xy2  AND Vx, Vy
  | xorVxVy (x y : Nibble)        -- 8xy3  XOR Vx, Vy
  | addVxVy (x y : Nibble)        -- 8xy4  ADD Vx, Vy
  | subVxVy (x y : Nibble)        -- 8xy5  SUB Vx, Vy
  | shrVx (x y : Nibble)          -- 8xy6  SHR Vx
  | subnVxVy (x y : Nibble)       -- 8xy7  SUBN Vx, Vy
  | shlVx (x y : Nibble)          -- 8xyE  SHL Vx
  | sneVxVy (x y : Nibble)        -- 9xy0  SNE Vx, Vy
  | ldI (nnn : Addr)              -- Annn  LD I, nnn
  | jpV0 (nnn : Addr)             -- Bnnn  JP V0, nnn
  | rnd (x : Nibble) (kk : Byte)        -- Cxkk  RND Vx, kk
  | drw (x y n : Nibble)          -- Dxyn  DRW Vx, Vy, n
  | skp (x : Nibble)              -- Ex9E  SKP Vx
  | sknp (x : Nibble)             -- ExA1  SKNP Vx
  | ldVxDt (x : Nibble)           -- Fx07  LD Vx, DT
  | ldVxK (x : Nibble)            -- Fx0A  LD Vx, K
  | ldDtVx (x : Nibble)           -- Fx15  LD DT, Vx
  | ldStVx (x : Nibble)           -- Fx18  LD ST, Vx
  | addI (x : Nibble)             -- Fx1E  ADD I, Vx
  | ldF (x : Nibble)              -- Fx29  LD F, Vx
  | ldB (x : Nibble)              -- Fx33  LD B, Vx
  | ldMemVx (x : Nibble)          -- Fx55  LD [I], Vx
  | ldVxMem (x : Nibble)          -- Fx65  LD Vx, [I]
deriving DecidableEq, Repr

/-- What a 16-bit word decodes to: an instruction, or UNKNOWN, which executes as a no-op (R54, R56). -/
inductive Decoded where
  | instr (i : Instr)
  | unknown
deriving DecidableEq, Repr

end Sys2Proof
end

