-- ==== Sys2Proof/WellFormed.lean ====
section
/-! DEFINITION. Which instructions have a word of their own. The types of the fields already make every
`x`, `y`, `kk`, `nnn`, `n` legal (30_encoding.md rule R59); the one check left is rule R54's: `SYS 0x0E0` and
`SYS 0x0EE` do not exist, because those two words are CLS and RET. -/

namespace Sys2Proof

/-- `SYS nnn` stands for the words 0x0000 to 0x0FFF except 0x00E0 and 0x00EE (R54, R57, R70);
every other operand value is legal (R59). -/
def WellFormed : Instr → Bool
  | .sys nnn => nnn != 0x0E0#12 && nnn != 0x0EE#12
  | _ => true

end Sys2Proof
end

