-- ==== Sys2Proof/Decode.lean ====
section
/-! DEFINITION. From words to instructions and back: the fields (30_encoding.md rule R51), the opcode map as a
table (R55), dispatch (R54), and the encoder. The bit patterns other than 00E0 and the shapes 0nnn and 1nnn are
the spec's general knowledge (93 K1, G1, G2; log 5): the map is one table, so that a corrected pattern is a
change of data. -/

namespace Sys2Proof

/-- `op1` = opcode[15:12] (R51). -/
def opField (w : Word) : Nibble := w.extractLsb' 12 4

/-- `x` = `op2` = opcode[11:8] (R51). -/
def xField (w : Word) : Nibble := w.extractLsb' 8 4

/-- `y` = `op3` = opcode[7:4] (R51). -/
def yField (w : Word) : Nibble := w.extractLsb' 4 4

/-- `n` = `op4` = opcode[3:0] (R51). -/
def nField (w : Word) : Nibble := w.extractLsb' 0 4

/-- `kk`, the low 8 bits, from its two nibbles (R51). -/
def kkOf (y n : Nibble) : Byte := y ++ n

/-- `nnn`, the low 12 bits, from its three nibbles (R51). -/
def nnnOf (x y n : Nibble) : Addr := x ++ y ++ n

/-- One position of a pattern of R55: a hex digit is literal, a field letter fits any nibble. -/
inductive PatNibble where
  | lit (v : Nibble)
  | any
deriving DecidableEq, Repr

/-- Whether a nibble fits a position of a pattern. -/
def PatNibble.fits : PatNibble → Nibble → Bool
  | .lit v, b => b == v
  | .any, _ => true

/-- A row of the opcode map R55: its four-nibble pattern, and the instruction built from `x`, `y`, `n`. -/
structure OpcodeRow where
  p1 : PatNibble
  p2 : PatNibble
  p3 : PatNibble
  p4 : PatNibble
  build : Nibble → Nibble → Nibble → Instr

/-- `opcode & mask = match` (R55), nibble by nibble. -/
def OpcodeRow.fits (r : OpcodeRow) (w : Word) : Bool :=
  r.p1.fits (opField w) && r.p2.fits (xField w) && r.p3.fits (yField w) && r.p4.fits (nField w)

/-- The opcode map R55, families 0x0 to 0x7. CLS and RET stand before SYS: "more specific nibble patterns
must be checked before the wildcard family" (R54). -/
def opcodeMapLow : List OpcodeRow :=
  [⟨.lit 0x0, .lit 0x0, .lit 0xE, .lit 0x0, fun _ _ _ => .cls⟩,
   ⟨.lit 0x0, .lit 0x0, .lit 0xE, .lit 0xE, fun _ _ _ => .ret⟩,
   ⟨.lit 0x0, .any, .any, .any, fun x y n => .sys (nnnOf x y n)⟩,
   ⟨.lit 0x1, .any, .any, .any, fun x y n => .jp (nnnOf x y n)⟩,
   ⟨.lit 0x2, .any, .any, .any, fun x y n => .call (nnnOf x y n)⟩,
   ⟨.lit 0x3, .any, .any, .any, fun x y n => .seVxKk x (kkOf y n)⟩,
   ⟨.lit 0x4, .any, .any, .any, fun x y n => .sneVxKk x (kkOf y n)⟩,
   ⟨.lit 0x5, .any, .any, .lit 0x0, fun x y _ => .seVxVy x y⟩,
   ⟨.lit 0x6, .any, .any, .any, fun x y n => .ldVxKk x (kkOf y n)⟩,
   ⟨.lit 0x7, .any, .any, .any, fun x y n => .addVxKk x (kkOf y n)⟩]

/-- The opcode map R55, family 0x8. -/
def opcodeMapAlu : List OpcodeRow :=
  [⟨.lit 0x8, .any, .any, .lit 0x0, fun x y _ => .ldVxVy x y⟩,
   ⟨.lit 0x8, .any, .any, .lit 0x1, fun x y _ => .orVxVy x y⟩,
   ⟨.lit 0x8, .any, .any, .lit 0x2, fun x y _ => .andVxVy x y⟩,
   ⟨.lit 0x8, .any, .any, .lit 0x3, fun x y _ => .xorVxVy x y⟩,
   ⟨.lit 0x8, .any, .any, .lit 0x4, fun x y _ => .addVxVy x y⟩,
   ⟨.lit 0x8, .any, .any, .lit 0x5, fun x y _ => .subVxVy x y⟩,
   ⟨.lit 0x8, .any, .any, .lit 0x6, fun x y _ => .shrVx x y⟩,
   ⟨.lit 0x8, .any, .any, .lit 0x7, fun x y _ => .subnVxVy x y⟩,
   ⟨.lit 0x8, .any, .any, .lit 0xE, fun x y _ => .shlVx x y⟩]

/-- The opcode map R55, families 0x9 to 0xF. -/
def opcodeMapHigh : List OpcodeRow :=
  [⟨.lit 0x9, .any, .any, .lit 0x0, fun x y _ => .sneVxVy x y⟩,
   ⟨.lit 0xA, .any, .any, .any, fun x y n => .ldI (nnnOf x y n)⟩,
   ⟨.lit 0xB, .any, .any, .any, fun x y n => .jpV0 (nnnOf x y n)⟩,
   ⟨.lit 0xC, .any, .any, .any, fun x y n => .rnd x (kkOf y n)⟩,
   ⟨.lit 0xD, .any, .any, .any, fun x y n => .drw x y n⟩,
   ⟨.lit 0xE, .any, .lit 0x9, .lit 0xE, fun x _ _ => .skp x⟩,
   ⟨.lit 0xE, .any, .lit 0xA, .lit 0x1, fun x _ _ => .sknp x⟩,
   ⟨.lit 0xF, .any, .lit 0x0, .lit 0x7, fun x _ _ => .ldVxDt x⟩,
   ⟨.lit 0xF, .any, .lit 0x0, .lit 0xA, fun x _ _ => .ldVxK x⟩,
   ⟨.lit 0xF, .any, .lit 0x1, .lit 0x5, fun x _ _ => .ldDtVx x⟩,
   ⟨.lit 0xF, .any, .lit 0x1, .lit 0x8, fun x _ _ => .ldStVx x⟩,
   ⟨.lit 0xF, .any, .lit 0x1, .lit 0xE, fun x _ _ => .addI x⟩,
   ⟨.lit 0xF, .any, .lit 0x2, .lit 0x9, fun x _ _ => .ldF x⟩,
   ⟨.lit 0xF, .any, .lit 0x3, .lit 0x3, fun x _ _ => .ldB x⟩,
   ⟨.lit 0xF, .any, .lit 0x5, .lit 0x5, fun x _ _ => .ldMemVx x⟩,
   ⟨.lit 0xF, .any, .lit 0x6, .lit 0x5, fun x _ _ => .ldVxMem x⟩]

/-- The whole opcode map R55: 35 rows. -/
def opcodeMap : List OpcodeRow := opcodeMapLow ++ opcodeMapAlu ++ opcodeMapHigh

/-- `Decode` of R54: the first row that fits, else UNKNOWN; total on every 16-bit word. -/
def decode (w : Word) : Decoded :=
  match opcodeMap.find? (fun r => r.fits w) with
  | some r => .instr (r.build (xField w) (yField w) (nField w))
  | none => .unknown

/-- Why bytes are no instruction. Neither is a fault of the machine: an unknown opcode executes as a no-op
(R56), and a fetch always has two bytes (R50). -/
inductive DecodeReject where
  /-- fewer than the two bytes of an instruction -/
  | tooShort
  /-- the word fits no row of R55 -/
  | unknownOpcode (w : Word)
deriving DecidableEq, Repr

/-- The opcode two consecutive bytes hold: big-endian, the byte at the lower address is the high byte
(20_memory.md rules R34, R35). -/
def wordOfBytes (hi lo : Byte) : Word := hi ++ lo

/-- The high byte of a word, which stands at the lower address (R34). -/
def highByte (w : Word) : Byte := w.extractLsb' 8 8

/-- The low byte of a word (R34). -/
def lowByte (w : Word) : Byte := w.extractLsb' 0 8

/-- Decode the first instruction of any bytes, with the bytes after it, or say by name why there is none.
Every instruction is exactly two bytes (R50). -/
def decodeBytes : List Byte → Except DecodeReject (Instr × List Byte)
  | hi :: lo :: rest =>
    match decode (wordOfBytes hi lo) with
    | .instr i => .ok (i, rest)
    | .unknown => .error (.unknownOpcode (wordOfBytes hi lo))
  | _ => .error .tooShort

/-- The word of an instruction, its fields laid out as the formats of R52 and the patterns of R55 say. -/
def encode : Instr → Word
  | .sys nnn => 0x0#4 ++ nnn
  | .cls => 0x00E0
  | .ret => 0x00EE
  | .jp nnn => 0x1#4 ++ nnn
  | .call nnn => 0x2#4 ++ nnn
  | .seVxKk x kk => 0x3#4 ++ x ++ kk
  | .sneVxKk x kk => 0x4#4 ++ x ++ kk
  | .seVxVy x y => 0x5#4 ++ x ++ y ++ 0x0#4
  | .ldVxKk x kk => 0x6#4 ++ x ++ kk
  | .addVxKk x kk => 0x7#4 ++ x ++ kk
  | .ldVxVy x y => 0x8#4 ++ x ++ y ++ 0x0#4
  | .orVxVy x y => 0x8#4 ++ x ++ y ++ 0x1#4
  | .andVxVy x y => 0x8#4 ++ x ++ y ++ 0x2#4
  | .xorVxVy x y => 0x8#4 ++ x ++ y ++ 0x3#4
  | .addVxVy x y => 0x8#4 ++ x ++ y ++ 0x4#4
  | .subVxVy x y => 0x8#4 ++ x ++ y ++ 0x5#4
  | .shrVx x y => 0x8#4 ++ x ++ y ++ 0x6#4
  | .subnVxVy x y => 0x8#4 ++ x ++ y ++ 0x7#4
  | .shlVx x y => 0x8#4 ++ x ++ y ++ 0xE#4
  | .sneVxVy x y => 0x9#4 ++ x ++ y ++ 0x0#4
  | .ldI nnn => 0xA#4 ++ nnn
  | .jpV0 nnn => 0xB#4 ++ nnn
  | .rnd x kk => 0xC#4 ++ x ++ kk
  | .drw x y n => 0xD#4 ++ x ++ y ++ n
  | .skp x => 0xE#4 ++ x ++ 0x9E#8
  | .sknp x => 0xE#4 ++ x ++ 0xA1#8
  | .ldVxDt x => 0xF#4 ++ x ++ 0x07#8
  | .ldVxK x => 0xF#4 ++ x ++ 0x0A#8
  | .ldDtVx x => 0xF#4 ++ x ++ 0x15#8
  | .ldStVx x => 0xF#4 ++ x ++ 0x18#8
  | .addI x => 0xF#4 ++ x ++ 0x1E#8
  | .ldF x => 0xF#4 ++ x ++ 0x29#8
  | .ldB x => 0xF#4 ++ x ++ 0x33#8
  | .ldMemVx x => 0xF#4 ++ x ++ 0x55#8
  | .ldVxMem x => 0xF#4 ++ x ++ 0x65#8

/-- The bytes of an instruction in memory order (R34, R50). -/
def encodeBytes (i : Instr) : List Byte := [highByte (encode i), lowByte (encode i)]

/-- The word whose bits opcode_table.json numbers: the low `nbits` bits of `w`, every bit above them 0. -/
def tableWord (nbits w : Nat) : Word := BitVec.ofNat 16 (w % 2 ^ nbits)

/-- The instruction the decoder reads from the bits `w` of an opcode-table row, laid out as the hardware
stores them (one 16-bit word, high byte first). -/
def decodeTableWord (nbits w : Nat) : Option Instr :=
  match decodeBytes [highByte (tableWord nbits w), lowByte (tableWord nbits w)] with
  | .ok (i, _) => some i
  | .error _ => none

end Sys2Proof
end

