-- ==== Sys2Proof/Config.lean ====
section
/-! DEFINITION. What an implementation of the CORE fixes (00_scope.md rule R2) and what the spec leaves open
(rule R3): the open values have no body, so that no proof can see what they are. -/

namespace Sys2Proof

/-- `MEM_SIZE`: bytes of memory, addresses 0x000 to 0xFFF (R2). -/
abbrev Config.memSize : Nat := 4096

/-- `PROG_BASE`: the address of the first program byte and the reset value of `pc` (R2, R151). -/
abbrev Config.progBase : Nat := 0x200

/-- The longest image `LoadRom` takes: 0x200 to 0xFFF (70_reset_and_hazards.md rule R152). -/
abbrev Config.romMax : Nat := 3584

/-- `rnd()` of rule R3: the byte of the n-th draw, any 8-bit value, no law (10_state.md rule R22, D5).
A FREE VALUE: no body (log 2). -/
opaque Config.rnd : Nat → Byte

/-- `UNKNOWN_TEXT` of rule R3: what an unknown opcode disassembles to (30_encoding.md rule R61, D33).
A FREE VALUE: no body; diagnostic only (log 7). -/
opaque Config.unknownText : String

/-- How a number in an operand prints: "not in the source" beyond hex (30_encoding.md rule R61, K22).
A FREE VALUE: no body; diagnostic only (log 7). -/
opaque Config.numberText : Nat → String

/-- The recommended instance of the open parameter `FONT` (20_memory.md rule R31), glyph by glyph.
PRESUMED: the spec marks it 'from general knowledge, not in source' (D4, G3). Only `State.reset` uses it;
no statement rests on it (log 3). -/
def Config.canonicalFont : Font :=
  #v[0xF0, 0x90, 0x90, 0x90, 0xF0,  0x20, 0x60, 0x20, 0x20, 0x70,
     0xF0, 0x10, 0xF0, 0x80, 0xF0,  0xF0, 0x10, 0xF0, 0x10, 0xF0,
     0x90, 0x90, 0xF0, 0x10, 0x10,  0xF0, 0x80, 0xF0, 0x10, 0xF0,
     0xF0, 0x80, 0xF0, 0x90, 0xF0,  0xF0, 0x10, 0x20, 0x40, 0x40,
     0xF0, 0x90, 0xF0, 0x90, 0xF0,  0xF0, 0x90, 0xF0, 0x10, 0xF0,
     0xF0, 0x90, 0xF0, 0x90, 0x90,  0xE0, 0x90, 0xE0, 0x90, 0xE0,
     0xF0, 0x80, 0x80, 0x80, 0xF0,  0xE0, 0x90, 0x90, 0x90, 0xE0,
     0xF0, 0x80, 0xF0, 0x80, 0xF0,  0xF0, 0x80, 0xF0, 0x80, 0x80]

end Sys2Proof
end

