-- ==== Sys2Proof/Machine/State.lean ====
section
/-! DEFINITION. The architectural state of the CORE (10_state.md), its faults, its reset. State is plain data. -/

namespace Sys2Proof.Machine

/-- The complete list of faults (60_exceptions.md rule R130); no other condition faults. A fault is raised by
writing this name into State's fault record (R139): the step that raises it answers `next`, with `run` Faulted
(log 1), so no step ends in `Host.Outcome.fault`. -/
inductive Fault where
  /-- code 1, raised by CALL when all 16 stack entries are in use (R131). Safe: the spec's own stop. -/
  | stackOverflow
  /-- code 2, raised by RET when the stack is empty (R132). Safe: the spec's own stop. -/
  | stackUnderflow
  /-- code 3, raised by LD B, LD [I], LD Vx,[I] and DRW when a byte they touch lies above 0xFFF (R133).
  Safe: the spec's own stop. -/
  | memOutOfRange
  /-- code 4, raised by the fetch of a Step when `pc` is even and above 0xFFE (R134). Safe: the spec's own stop. -/
  | fetchOutOfRange
  /-- code 5, raised by the fetch of a Step when `pc` is odd (R135). Safe: the spec's own stop. -/
  | fetchMisaligned
deriving DecidableEq, Repr

/-- Why the model gives no meaning. No instruction, step or event ends so, but for an image too long to load. -/
inductive Refusal where
  /-- an instruction without a meaning: raised by no arm of exec, every instruction has one. Safe. -/
  | notModelled (mnemonic : String)
  /-- raised by the host event LoadRom for an image longer than 3584 bytes: "a model refuses such a launch"
  (70_reset_and_hazards.md rule R153, K23; log 10). Safe. -/
  | romTooLong
deriving DecidableEq, Repr

/-- `run` of 10_state.md rule R20. -/
inductive RunState where
  | running
  | faulted
deriving DecidableEq, Repr

/-- `fault` of 10_state.md rule R20: which fault, the address of the faulting instruction, and the word fetched
there, absent for the two fetch faults. -/
structure FaultRecord where
  code : Fault
  pc : Word
  opcode : Option Word
deriving DecidableEq, Repr

/-- `fb` of 10_state.md rule R18: 32 rows of 64 one-bit pixels, `fb[y][x]`, true is on. -/
abbrev Framebuffer := Vector (Vector Bool 64) 32

/-- Everything the spec gives the machine (10_state.md section 1), and two fields of the model's own:
`font`, the argument FONT of 00_scope.md rule R3, and `rndDraws`, how many bytes rnd() has given. -/
structure State where
  /-- the sixteen general registers V0 to VF; VF is the flag register too (R10, R11) -/
  V : Vector Byte 16
  /-- the index register (R12) -/
  I : Word
  /-- the program counter (R13) -/
  pc : Word
  /-- how many stack entries are valid, 0 to 16 (R15) -/
  sp : Fin 17
  /-- the call stack's entries, not in memory (R15) -/
  stack : Vector Word 16
  /-- the delay timer (R16) -/
  dt : Byte
  /-- the sound timer (R16) -/
  st : Byte
  /-- memory, as the cells that differ from the reset contents (R17; `Memory.unlisted`; log 11) -/
  mem : List Host.Cell
  /-- the framebuffer (R18) -/
  fb : Framebuffer
  /-- the input latch: bit k is set iff logical key k is held (R19) -/
  keys : Word
  /-- Running or Faulted (R20) -/
  run : RunState
  /-- the fault record, absent while Running (R20) -/
  fault : Option FaultRecord
  /-- THE MODEL'S OWN: the open parameter FONT of R3; nothing writes it (log 3) -/
  font : Font
  /-- THE MODEL'S OWN: the index of the next draw of rnd(), R22 (log 2) -/
  rndDraws : Nat
deriving DecidableEq, Repr

/-- The framebuffer with every pixel off (43_display.md rule R111). -/
def blankFramebuffer : Framebuffer := Vector.replicate 32 (Vector.replicate 64 false)

/-- The state after Reset for a given FONT and draw counter (10_state.md rule R28, 70 R150). Memory lists
nothing: an unlisted address reads as its reset contents, FONT below 0x050 and zero above. -/
def State.resetWith (font : Font) (rndDraws : Nat) : State where
  V := Vector.replicate 16 0
  I := 0
  pc := 0x200
  sp := 0
  stack := Vector.replicate 16 0
  dt := 0
  st := 0
  mem := []
  fb := blankFramebuffer
  keys := 0
  run := .running
  fault := none
  font := font
  rndDraws := rndDraws

/-- The machine right after its first reset, with the recommended font (log 3) and no draw made (log 2). -/
def State.reset : State := State.resetWith Config.canonicalFont 0

end Sys2Proof.Machine
end

