-- ==== Sys2Proof/Machine/Ops.lean ====
section
/-! DEFINITION. The named operations over State that every meaning is written with: registers, the control flow
of R14, memory (20_memory.md), the call stack, the framebuffer raster engine (43_display.md), the input latch
(44_input_timers.md), the fetch, the draw of rnd(), and taking a fault (60_exceptions.md rule R139). There is no
return from a fault: only the Reset event leaves Faulted (R140). -/

namespace Sys2Proof.Machine

/-! ## General registers (R10, R11) -/

/-- `V[x]`: one bank of 16, none hard-wired (R10). -/
def State.reg (s : State) (x : Nibble) : Byte := s.V[x.toNat]

/-- `V[x] <- b` (R10). -/
def State.setReg (s : State) (x : Nibble) (b : Byte) : State :=
  { s with V := s.V.set x.toNat b }

/-- `V[0xF] <- 1` or `0`: a flag write always writes 0x00 or 0x01 (R11, R93). -/
def State.setFlag (s : State) (f : Bool) : State := s.setReg 0xF (flagByte f)

/-- Write `b` to each register from `x` on, in ascending order (42_index_memory.md rule R104). -/
def State.setRegsFrom (s : State) (x : Nat) : List Byte → State
  | [] => s
  | b :: bs => (s.setReg (BitVec.ofNat 4 x) b).setRegsFrom (x + 1) bs

/-! ## Program counter (R13, R14) -/

/-- `pc <- t`: a write to `pc` is not checked (R13, R36). -/
def State.jumpTo (s : State) (t : Word) : State := { s with pc := t }

/-- `pc <- pc + 2`, what every instruction does that R14 does not list. -/
def State.advance (s : State) : State := s.jumpTo (s.pc + 2)

/-- A conditional skip: `pc + 4` when the condition holds, else `pc + 2` (R14, R79). -/
def State.skipIf (s : State) (c : Bool) : State := if c then s.jumpTo (s.pc + 4) else s.advance

/-- The result to `V[x]` first and the flag to `V[0xF]` second (41_load_alu.md rule R80), then `pc + 2`. -/
def State.writeResultAndFlag (s : State) (x : Nibble) (r : Byte) (f : Bool) : State :=
  ((s.setReg x r).setFlag f).advance

/-! ## Taking a fault (R20, R139) -/

/-- `raise F`: `run` and `fault` are written and nothing else, so `pc` still points at the faulting
instruction; `opcode` is the fetched word, absent for the two fetch faults (60_exceptions.md rule R139). -/
def State.raise (s : State) (f : Fault) (opcode : Option Word) : State :=
  { s with run := .faulted, fault := some ⟨f, s.pc, opcode⟩ }

/-- The numeric code of a fault (60_exceptions.md rule R130). -/
def Fault.code : Fault → Nat
  | .stackOverflow => 1
  | .stackUnderflow => 2
  | .memOutOfRange => 3
  | .fetchOutOfRange => 4
  | .fetchMisaligned => 5

/-! ## Memory (20_memory.md) -/

/-- What an unlisted address reads as: the reset contents, `FONT[a]` at 0x000 to 0x04F and 0x00 from 0x050 on
(10_state.md rule R28, 20_memory.md rule R31). -/
def Memory.unlisted (font : Font) (a : Nat) : Byte := if h : a < 80 then font[a] else 0

/-- The byte listed at an address, if any. -/
def Memory.find : List Host.Cell → Nat → Option Byte
  | [], _ => none
  | (a', b) :: m, a => if a' = a then some b else Memory.find m a

/-- The cells without any at `a`. -/
def Memory.erase : List Host.Cell → Nat → List Host.Cell
  | [], _ => []
  | (a', b) :: m, a => if a' = a then Memory.erase m a else (a', b) :: Memory.erase m a

/-- The cells with `b` listed at `a`, in rising order of address. -/
def Memory.insert : List Host.Cell → Nat → Byte → List Host.Cell
  | [], a, b => [(a, b)]
  | (a', b') :: m, a, b =>
    if a < a' then (a, b) :: (a', b') :: m
    else if a' = a then (a, b) :: m
    else (a', b') :: Memory.insert m a b

/-- The one canonical form of memory: addresses strictly rising, every one of the 4096 (R30), and no cell
equal to what an unlisted address reads as. -/
abbrev Memory.wf (font : Font) (m : List Host.Cell) : Prop :=
  m.Pairwise (fun c d => c.1 < d.1) ∧
    ∀ c ∈ m, c.1 < Config.memSize ∧ c.2 ≠ Memory.unlisted font c.1

/-- `mem[a]`, with no bounds check (00_scope.md 5.2): only the primitives and the fetch use it. -/
def State.readByte (s : State) (a : Nat) : Byte :=
  (Memory.find s.mem a).getD (Memory.unlisted s.font a)

/-- `mem[a] <- b`, with no bounds check. Every byte is writable, the font and the program included (R38);
writing the reset contents removes the cell. -/
def State.writeByte (s : State) (a : Nat) (b : Byte) : State :=
  { s with mem := if b = Memory.unlisted s.font a then Memory.erase s.mem a else Memory.insert s.mem a b }

/-- `n` bytes from `a` on, ascending. -/
def State.readBytes (s : State) (a : Nat) : Nat → List Byte
  | 0 => []
  | n + 1 => s.readByte a :: s.readBytes (a + 1) n

/-- Bytes to `a`, `a+1`, ... in ascending order (R39). -/
def State.writeBytes (s : State) (a : Nat) : List Byte → State
  | [] => s
  | b :: bs => (s.writeByte a b).writeBytes (a + 1) bs

/-- An access of `n` bytes from `a` is in range iff every byte it touches has an address of at most 0xFFF;
addresses are unbounded naturals, never reduced; no byte touched, no fault (R30, R32, C3). -/
def accessInRange (a n : Nat) : Bool := n == 0 || decide (a + n - 1 ≤ 0xFFF)

/-- `MemRead(a, n)` (R32); `none` raises MemOutOfRange. -/
def State.memRead (s : State) (a n : Nat) : Option (List Byte) :=
  if accessInRange a n then some (s.readBytes a n) else none

/-- `MemWrite(a, n, bytes)` with `n` the number of bytes (R32); the whole access is checked before any byte is
written (R33); `none` raises MemOutOfRange. -/
def State.memWrite (s : State) (a : Nat) (bs : List Byte) : Option State :=
  if accessInRange a bs.length then some (s.writeBytes a bs) else none

/-! ## Fetch (R34) -/

/-- The opcode at `a`: big-endian, `mem[a] ++ mem[a+1]` (R34, R35). -/
def State.wordAt (s : State) (a : Nat) : Word := wordOfBytes (s.readByte a) (s.readByte (a + 1))

/-- `Fetch(pc0)`: an odd `pc` faults first, then a `pc` above 0xFFE; any other address may be fetched (R34). -/
def State.fetch (s : State) : Except Fault Word :=
  if s.pc.getLsbD 0 then .error .fetchMisaligned
  else if s.pc.toNat > 0xFFE then .error .fetchOutOfRange
  else .ok (s.wordAt s.pc.toNat)

/-! ## Call stack (R15) -/

/-- Push: requires `sp <= 15`, writes `stack[sp]`, then increments `sp`; `none` when all 16 are in use. -/
def State.push (s : State) (w : Word) : Option State :=
  if h : s.sp.val < 16 then
    some { s with stack := s.stack.set s.sp.val w, sp := ⟨s.sp.val + 1, by omega⟩ }
  else none

/-- Pop: requires `sp >= 1`, decrements `sp` and reads `stack[sp]` at the new value; the entry's bits stay in
place; `none` when the stack is empty. -/
def State.pop (s : State) : Option (Word × State) :=
  if h : s.sp.val = 0 then none
  else
    some (s.stack[s.sp.val - 1]'(by have := s.sp.isLt; omega),
      { s with sp := ⟨s.sp.val - 1, by have := s.sp.isLt; omega⟩ })

/-! ## The raster engine (43_display.md) -/

/-- The pixel at a logical position of any naturals, reduced per pixel: `fb[cy mod 32][cx mod 64]` (R110). -/
def Framebuffer.pixel (fb : Framebuffer) (cx cy : Nat) : Bool :=
  (fb[cy % 32]'(Nat.mod_lt _ (by decide)))[cx % 64]'(Nat.mod_lt _ (by decide))

/-- `fb[py][px] <- fb[py][px] ^ 1` (R112). -/
def Framebuffer.flip (fb : Framebuffer) (cx cy : Nat) : Framebuffer :=
  fb.set (cy % 32)
    ((fb[cy % 32]'(Nat.mod_lt _ (by decide))).set (cx % 64) (!Framebuffer.pixel fb cx cy)
      (Nat.mod_lt _ (by decide)))
    (Nat.mod_lt _ (by decide))

/-- `Clear()` of R111: every pixel off. -/
def Framebuffer.clear (_ : Framebuffer) : Framebuffer := Vector.replicate 32 (Vector.replicate 64 false)

/-- The sprite bit at column `c` of a row: bit 7 of the byte is column 0 (R112; the spec's general knowledge,
93 K2/G4, log 5). -/
def spriteBit (row : Byte) (c : Nat) : Bool := row.getLsbD (7 - c)

/-- One turn of the inner loop of `Blit` (R112): a sprite bit of 1 hits a pixel that is on and inverts it; a bit
of 0 leaves it alone. -/
def blitBit (x0 y : Nat) (row : Byte) (acc : Framebuffer × Bool) (c : Nat) : Framebuffer × Bool :=
  if spriteBit row c then
    (Framebuffer.flip acc.1 (x0 + c) y, acc.2 || Framebuffer.pixel acc.1 (x0 + c) y)
  else acc

/-- The inner loop of `Blit`: columns 0 to 7 of one row (R112). -/
def blitRow (x0 y : Nat) (row : Byte) (acc : Framebuffer × Bool) : Framebuffer × Bool :=
  (List.range 8).foldl (blitBit x0 y row) acc

/-- The outer loop of `Blit`: the rows from `y` on (R112). -/
def blitRows (x0 : Nat) : Nat → List Byte → Framebuffer × Bool → Framebuffer × Bool
  | _, [], acc => acc
  | y, row :: rows, acc => blitRows x0 (y + 1) rows (blitRow x0 y row acc)

/-- `Blit(x0, y0, rows)` of R112: the framebuffer after, and `hit` (R113). -/
def Framebuffer.blit (fb : Framebuffer) (x0 y0 : Nat) (rows : List Byte) : Framebuffer × Bool :=
  blitRows x0 y0 rows (fb, false)

/-! ## The input latch (44_input_timers.md rule R120) -/

/-- `is_pressed(k)` for an 8-bit `k`: an index of 16 or more names no key and is not pressed (R120, D22). -/
def State.isPressed (s : State) (k : Byte) : Bool := decide (k.toNat ≤ 15) && s.keys.getLsbD k.toNat

/-- `any_pressed()` (R120). -/
def State.anyPressed (s : State) : Bool := s.keys != 0

/-- `lowest_pressed_index()` (R120), only asked for when some key is held. -/
def State.lowestPressed (s : State) : Nat :=
  ((List.range 16).find? (fun k => s.keys.getLsbD k)).getD 0

/-! ## The random byte (R22) -/

/-- `r <- rnd()`: the next draw, an arbitrary 8-bit value, and the state with that draw made (R22, D5; log 2). -/
def State.draw (s : State) : Byte × State :=
  (Config.rnd s.rndDraws, { s with rndDraws := s.rndDraws + 1 })

end Sys2Proof.Machine
end

