-- ==== Sys2Proof/Machine/Operands.lean ====
section
/-! DEFINITION. The operand forms (30_encoding.md rule R53; 42_index_memory.md): immediates are unsigned and
zero-extended, never scaled or sign-extended; the one data addressing mode is `I` plus a constant offset. -/

namespace Sys2Proof.Machine

/-- `zext_16(nnn)`: a 12-bit address as `pc` or `I` takes it (R53). -/
def addrOperand (nnn : Addr) : Word := nnn.setWidth 16

/-- `zext_16(V[x])`: a register value in 16-bit arithmetic (R73, R101, R105). -/
def State.regWide (s : State) (x : Nibble) : Word := (s.reg x).setWidth 16

/-- The base of every data access: `I` as a natural number; byte `i` is at `I + i`, never reduced (R30). -/
def State.base (s : State) : Nat := s.I.toNat

/-- The target of `JP V0, nnn`: a 16-bit sum, not masked to 12 bits (R73). -/
def State.jumpV0Target (s : State) (nnn : Addr) : Word := addrOperand nnn + s.regWide 0

/-- The address of the glyph `V[x]` names: `5 * V[x]`, for every value, not masked or checked (R101, D29). -/
def State.glyphAddress (s : State) (x : Nibble) : Word := 5 * s.regWide x

/-- The decimal digits of a byte: hundreds, tens, ones (R102). -/
def bcdDigits (v : Byte) : List Byte := [v / 100, (v / 10) % 10, v % 10]

/-- `V[i]`, `V[i+1]`, ...: `n` registers from number `i` on. -/
def State.regsFrom (s : State) (i : Nat) : Nat → List Byte
  | 0 => []
  | n + 1 => s.reg (BitVec.ofNat 4 i) :: s.regsFrom (i + 1) n

/-- The block `V[0] .. V[x]`, `x` INCLUDED: `x + 1` bytes (R103, C6, D21). -/
def State.regBlock (s : State) (x : Nibble) : List Byte := s.regsFrom 0 (x.toNat + 1)

/-- Load the block `V[0] ..` from bytes, ascending (R104). -/
def State.setRegBlock (s : State) (bs : List Byte) : State := s.setRegsFrom 0 bs

end Sys2Proof.Machine
end

