-- ==== Sys2Proof/Machine/ControlFlow.lean ====
section
/-! DEFINITION. Control transfer (40_control_flow.md): SYS, RET, JP, CALL and the compare-and-skip instructions,
and the no-op an UNKNOWN word executes as. `pc` is the address of the instruction itself. -/

namespace Sys2Proof.Machine

/-- An UNKNOWN word: `pc <- pc + 2` and nothing else; no fault, nothing recorded (30_encoding.md rule R56, R136). -/
def execUnknown (s : State) : Host.Outcome State Fault Refusal := .next s.advance

/-- SYS nnn: a no-op; the operand is ignored (R70, D9). -/
def execSys (_nnn : Addr) (s : State) : Host.Outcome State Fault Refusal := .next s.advance

/-- RET: the popped value becomes `pc`, no +2 added; StackUnderflow on an empty stack (R71, R132). -/
def execRet (s : State) : Host.Outcome State Fault Refusal :=
  match s.pop with
  | some (ra, t) => .next (t.jumpTo ra)
  | none => .next (s.raise .stackUnderflow (some (encode .ret)))

/-- JP nnn: `pc <- nnn`, unchecked (R72). -/
def execJp (nnn : Addr) (s : State) : Host.Outcome State Fault Refusal :=
  .next (s.jumpTo (addrOperand nnn))

/-- JP V0, nnn: `pc <- nnn + V[0]`, unmasked and unchecked (R73). -/
def execJpV0 (nnn : Addr) (s : State) : Host.Outcome State Fault Refusal :=
  .next (s.jumpTo (s.jumpV0Target nnn))

/-- CALL nnn: push the address of the next instruction, go to `nnn`; StackOverflow on a full stack (R74, R131). -/
def execCall (nnn : Addr) (s : State) : Host.Outcome State Fault Refusal :=
  match s.push (s.pc + 2) with
  | some t => .next (t.jumpTo (addrOperand nnn))
  | none => .next (s.raise .stackOverflow (some (encode (.call nnn))))

/-- SE Vx, kk (R75). -/
def execSeVxKk (x : Nibble) (kk : Byte) (s : State) : Host.Outcome State Fault Refusal :=
  .next (s.skipIf (s.reg x == kk))

/-- SNE Vx, kk (R76). -/
def execSneVxKk (x : Nibble) (kk : Byte) (s : State) : Host.Outcome State Fault Refusal :=
  .next (s.skipIf (s.reg x != kk))

/-- SE Vx, Vy (R77). -/
def execSeVxVy (x y : Nibble) (s : State) : Host.Outcome State Fault Refusal :=
  .next (s.skipIf (s.reg x == s.reg y))

/-- SNE Vx, Vy (R78). -/
def execSneVxVy (x y : Nibble) (s : State) : Host.Outcome State Fault Refusal :=
  .next (s.skipIf (s.reg x != s.reg y))

end Sys2Proof.Machine
end

