-- ==== Sys2Proof/Machine/Display.lean ====
section
/-! DEFINITION. The framebuffer instructions CLS and DRW (43_display.md). -/

namespace Sys2Proof.Machine

/-- CLS: every pixel off; VF untouched (R114). -/
def execCls (s : State) : Host.Outcome State Fault Refusal :=
  .next ({ s with fb := Framebuffer.clear s.fb } : State).advance

/-- DRW Vx, Vy, n: `n` sprite rows from `I`, XORed in at column V[x], row V[y]; VF is the collision, always
written; the coordinates and the range are settled before any pixel changes (R115); `n = 0` draws nothing,
cannot fault and writes VF 0 (R116). -/
def execDrw (x y n : Nibble) (s : State) : Host.Outcome State Fault Refusal :=
  match s.memRead s.base n.toNat with
  | some rows =>
    .next (({ s with fb := (Framebuffer.blit s.fb (s.reg x).toNat (s.reg y).toNat rows).1 } : State).setFlag
      (Framebuffer.blit s.fb (s.reg x).toNat (s.reg y).toNat rows).2).advance
  | none => .next (s.raise .memOutOfRange (some (encode (.drw x y n))))

end Sys2Proof.Machine
end

