-- ==== Sys2Proof/Machine/IndexMemory.lean ====
section
/-! DEFINITION. Index register and memory instructions (42_index_memory.md). The memory instructions leave `I`
unchanged (R106) and check the whole access before any effect (20_memory.md rule R33). -/

namespace Sys2Proof.Machine

/-- LD I, nnn (R100). -/
def execLdI (nnn : Addr) (s : State) : Host.Outcome State Fault Refusal :=
  .next ({ s with I := addrOperand nnn } : State).advance

/-- LD F, Vx: `I <- 5 * V[x]` for every value of V[x] (R101). -/
def execLdF (x : Nibble) (s : State) : Host.Outcome State Fault Refusal :=
  .next ({ s with I := s.glyphAddress x } : State).advance

/-- ADD I, Vx: modulo 65536, VF untouched (R105). -/
def execAddI (x : Nibble) (s : State) : Host.Outcome State Fault Refusal :=
  .next ({ s with I := s.I + s.regWide x } : State).advance

/-- LD B, Vx: hundreds, tens, ones at I, I+1, I+2 (R102). -/
def execLdB (x : Nibble) (s : State) : Host.Outcome State Fault Refusal :=
  match s.memWrite s.base (bcdDigits (s.reg x)) with
  | some t => .next t.advance
  | none => .next (s.raise .memOutOfRange (some (encode (.ldB x))))

/-- LD [I], Vx: V[0] .. V[x] inclusive to mem[I] .. mem[I+x] (R103). -/
def execLdMemVx (x : Nibble) (s : State) : Host.Outcome State Fault Refusal :=
  match s.memWrite s.base (s.regBlock x) with
  | some t => .next t.advance
  | none => .next (s.raise .memOutOfRange (some (encode (.ldMemVx x))))

/-- LD Vx, [I]: mem[I] .. mem[I+x] to V[0] .. V[x] inclusive (R104). -/
def execLdVxMem (x : Nibble) (s : State) : Host.Outcome State Fault Refusal :=
  match s.memRead s.base (x.toNat + 1) with
  | some bs => .next (s.setRegBlock bs).advance
  | none => .next (s.raise .memOutOfRange (some (encode (.ldVxMem x))))

end Sys2Proof.Machine
end

