-- ==== Sys2Proof/Machine/InputTimers.lean ====
section
/-! DEFINITION. The input latch and timer instructions (44_input_timers.md). None of them faults; none writes
`keys`; there is no instruction that reads `st` (R127). -/

namespace Sys2Proof.Machine

/-- SKP Vx: skip if the key V[x] names is held (R121). -/
def execSkp (x : Nibble) (s : State) : Host.Outcome State Fault Refusal :=
  .next (s.skipIf (s.isPressed (s.reg x)))

/-- SKNP Vx: skip if it is not (R122). -/
def execSknp (x : Nibble) (s : State) : Host.Outcome State Fault Refusal :=
  .next (s.skipIf (!s.isPressed (s.reg x)))

/-- LD Vx, K: with a key held, the lowest key's index and `pc + 2`; with none, nothing changes and the next Step
fetches this instruction again (R123, C2). -/
def execLdVxK (x : Nibble) (s : State) : Host.Outcome State Fault Refusal :=
  if s.anyPressed then .next (s.setReg x (BitVec.ofNat 8 s.lowestPressed)).advance else .next s

/-- LD Vx, DT (R124). -/
def execLdVxDt (x : Nibble) (s : State) : Host.Outcome State Fault Refusal :=
  .next (s.setReg x s.dt).advance

/-- LD DT, Vx (R125). -/
def execLdDtVx (x : Nibble) (s : State) : Host.Outcome State Fault Refusal :=
  .next ({ s with dt := s.reg x } : State).advance

/-- LD ST, Vx (R126). -/
def execLdStVx (x : Nibble) (s : State) : Host.Outcome State Fault Refusal :=
  .next ({ s with st := s.reg x } : State).advance

end Sys2Proof.Machine
end

