-- ==== Sys2Proof/Machine/Flags.lean ====
section
/-! DEFINITION. Results and flags of the ALU, each computed from the operands as they were before anything is
written (41_load_alu.md rules R80, R93). All arithmetic is unsigned; results wrap modulo 256. -/

namespace Sys2Proof.Machine

/-- `(a + b) mod 256` (R83, R87). -/
def addResult (a b : Byte) : Byte := BitVec.ofNat 8 (a.toNat + b.toNat)

/-- The flag of ADD Vx, Vy: carry out of bit 7, 1 iff `a + b >= 256` (R87). -/
def addFlag (a b : Byte) : Bool := decide (a.toNat + b.toNat ≥ 256)

/-- `(a - b) mod 256`, that is `a - b + 256` when `a < b` (R88, R89). -/
def subResult (a b : Byte) : Byte := BitVec.ofNat 8 (a.toNat + 256 - b.toNat)

/-- The flag of a subtract: 1 iff the minuend is STRICTLY greater than the subtrahend; equal operands give 0
(R88, R89, K9). -/
def subFlag (minuend subtrahend : Byte) : Bool := decide (minuend.toNat > subtrahend.toNat)

/-- `a >> 1`, logical: bit 7 becomes 0 (R90). -/
def shrResult (a : Byte) : Byte := a >>> 1

/-- The flag of SHR: the low bit, before the shift (R90). -/
def shrFlag (a : Byte) : Bool := a.getLsbD 0

/-- `(a << 1) mod 256`: bit 0 becomes 0 (R91). -/
def shlResult (a : Byte) : Byte := a <<< 1

/-- The flag of SHL: the high bit, before the shift (R91). -/
def shlFlag (a : Byte) : Bool := a.getLsbD 7

end Sys2Proof.Machine
end

