-- ==== Sys2Proof/Machine/LoadAlu.lean ====
section
/-! DEFINITION. Register loads and the ALU (41_load_alu.md). Operands are read before anything is written; the
result is written first and the flag last (R80); no instruction here faults. -/

namespace Sys2Proof.Machine

/-- LD Vx, kk (R81). -/
def execLdVxKk (x : Nibble) (kk : Byte) (s : State) : Host.Outcome State Fault Refusal :=
  .next (s.setReg x kk).advance

/-- LD Vx, Vy (R82). -/
def execLdVxVy (x y : Nibble) (s : State) : Host.Outcome State Fault Refusal :=
  .next (s.setReg x (s.reg y)).advance

/-- ADD Vx, kk: wraps, and does NOT set the flag register (R83). -/
def execAddVxKk (x : Nibble) (kk : Byte) (s : State) : Host.Outcome State Fault Refusal :=
  .next (s.setReg x (addResult (s.reg x) kk)).advance

/-- OR Vx, Vy: VF untouched (R84). -/
def execOrVxVy (x y : Nibble) (s : State) : Host.Outcome State Fault Refusal :=
  .next (s.setReg x (s.reg x ||| s.reg y)).advance

/-- AND Vx, Vy: VF untouched (R85). -/
def execAndVxVy (x y : Nibble) (s : State) : Host.Outcome State Fault Refusal :=
  .next (s.setReg x (s.reg x &&& s.reg y)).advance

/-- XOR Vx, Vy: VF untouched (R86). -/
def execXorVxVy (x y : Nibble) (s : State) : Host.Outcome State Fault Refusal :=
  .next (s.setReg x (s.reg x ^^^ s.reg y)).advance

/-- ADD Vx, Vy: VF is the carry (R87). -/
def execAddVxVy (x y : Nibble) (s : State) : Host.Outcome State Fault Refusal :=
  .next (s.writeResultAndFlag x (addResult (s.reg x) (s.reg y)) (addFlag (s.reg x) (s.reg y)))

/-- SUB Vx, Vy: `V[x] - V[y]`; VF is 1 iff `V[x] > V[y]`, strictly (R88). -/
def execSubVxVy (x y : Nibble) (s : State) : Host.Outcome State Fault Refusal :=
  .next (s.writeResultAndFlag x (subResult (s.reg x) (s.reg y)) (subFlag (s.reg x) (s.reg y)))

/-- SUBN Vx, Vy: `V[y] - V[x]`; VF is 1 iff `V[y] > V[x]`, strictly (R89). -/
def execSubnVxVy (x y : Nibble) (s : State) : Host.Outcome State Fault Refusal :=
  .next (s.writeResultAndFlag x (subResult (s.reg y) (s.reg x)) (subFlag (s.reg y) (s.reg x)))

/-- SHR Vx: `y` is decoded and ignored; VF is the old bit 0 (R90). -/
def execShrVx (x _y : Nibble) (s : State) : Host.Outcome State Fault Refusal :=
  .next (s.writeResultAndFlag x (shrResult (s.reg x)) (shrFlag (s.reg x)))

/-- SHL Vx: `y` is decoded and ignored; VF is the old bit 7 (R91). -/
def execShlVx (x _y : Nibble) (s : State) : Host.Outcome State Fault Refusal :=
  .next (s.writeResultAndFlag x (shlResult (s.reg x)) (shlFlag (s.reg x)))

/-- RND Vx, kk: an arbitrary byte AND `kk` (R92; log 2). -/
def execRnd (x : Nibble) (kk : Byte) (s : State) : Host.Outcome State Fault Refusal :=
  .next (s.draw.2.setReg x (s.draw.1 &&& kk)).advance

end Sys2Proof.Machine
end

