-- ==== Sys2Proof/Machine/Step.lean ====
section
/-! DEFINITION. One `Step` event (10_state.md rule R25): fetch, decode, execute; and the placing of one
instruction where the next Step fetches it. -/

namespace Sys2Proof.Machine

/-- `Step` of R25. Faulted: no effect (R20, R140). A fetch fault is raised with no opcode (R34, R130). An
UNKNOWN word advances `pc` (R56). -/
def step (s : State) : Host.Outcome State Fault Refusal :=
  match s.run with
  | .faulted => .next s
  | .running =>
    match s.fetch with
    | .error f => .next (s.raise f none)
    | .ok w =>
      match decode w with
      | .instr i => exec i s
      | .unknown => execUnknown s

/-- `s` made ready to fetch: a Faulted machine runs again, and a `pc` no Step can fetch at (odd, or above 0xFFE)
is the program base. A Running machine with a fetchable `pc` is left as it is. Part of `withFetchWord` only. -/
def State.readyToFetch (s : State) : State :=
  { s with
    run := .running
    fault := if s.run = .running then s.fault else none
    pc := if s.pc.getLsbD 0 || decide (s.pc.toNat > 0xFFE) then 0x200 else s.pc }

/-- `s` with the instruction whose bits are `w` (numbered as spec/opcode_table.json numbers them) stored where
`step` fetches next, high byte first: it stands for the load of a program (log 8). -/
def State.withFetchWord (s : State) (nbits w : Nat) : State :=
  s.readyToFetch.writeBytes s.readyToFetch.pc.toNat
    [highByte (tableWord nbits w), lowByte (tableWord nbits w)]

end Sys2Proof.Machine
end

