-- ==== Sys2Proof/Machine/Events.lean ====
section
/-! DEFINITION. The host's events (10_state.md rule R24): every way State changes. They are atomic and totally
ordered; which one comes next is the host's choice, the open parameter `schedule` (00_scope.md rule R3, D3), so a
run is a list of events (log 4). -/

namespace Sys2Proof.Machine

/-- `TimerTick` (R26): both timers down by one, each clamped at zero; no effect in Faulted. -/
def State.timerTick (s : State) : State :=
  match s.run with
  | .faulted => s
  | .running =>
    { s with
      dt := if s.dt.toNat > 0 then s.dt - 1 else s.dt
      st := if s.st.toNat > 0 then s.st - 1 else s.st }

/-- `KeyUpdate(mask)` (R27): the latch takes any mask; no effect in Faulted. -/
def State.keyUpdate (mask : Word) (s : State) : State :=
  match s.run with
  | .faulted => s
  | .running => { s with keys := mask }

/-- `Reset` (R28, 70 R150), in any state, Faulted included. FONT is the parameter it was, and the draws of rnd()
go on: a reset does not make the random bytes repeat (R22). -/
def State.resetEvent (s : State) : State := State.resetWith s.font s.rndDraws

/-- `LoadRom(bytes)` (70 R152): the image, byte for byte, from 0x200; an image over 3584 bytes is refused (R153).
That it comes only after Reset and before the first Step is a condition on schedules, `Event.scheduleLegal`. -/
def State.loadRom (bytes : List Byte) (s : State) : Host.Outcome State Fault Refusal :=
  if bytes.length ≤ Config.romMax then .next (s.writeBytes Config.progBase bytes)
  else .refused .romTooLong

/-- The one-bit output `tone`: 1 iff `st != 0`; a function of state (R21). -/
def State.tone (s : State) : Bool := s.st != 0

/-- What `HostRead` returns (43_display.md rule R117). -/
structure HostView where
  fb : Framebuffer
  tone : Bool
  run : RunState
  fault : Option FaultRecord
deriving DecidableEq, Repr

/-- `HostRead` (R117): the pixels, the tone, `run` and `fault`. It works in every state, Faulted included (R140). -/
def State.hostRead (s : State) : HostView := ⟨s.fb, s.tone, s.run, s.fault⟩

/-- The events of R24. -/
inductive Event where
  | reset
  | loadRom (bytes : List Byte)
  | step
  | timerTick
  | keyUpdate (mask : Word)
  | hostRead
deriving DecidableEq, Repr

/-- What an event does to the state; `HostRead` changes nothing (R24, R117). -/
def Event.apply : Event → State → Host.Outcome State Fault Refusal
  | .reset, s => .next s.resetEvent
  | .loadRom bytes, s => s.loadRom bytes
  | .step, s => Sys2Proof.Machine.step s
  | .timerTick, s => .next s.timerTick
  | .keyUpdate mask, s => .next (s.keyUpdate mask)
  | .hostRead, s => .next s

/-- A run under a schedule: the events one after the other (R24). -/
def runEvents : List Event → State → Host.Outcome State Fault Refusal
  | [], s => .next s
  | e :: es, s =>
    match e.apply s with
    | .next t => runEvents es t
    | .fault f => .fault f
    | .refused r => .refused r

/-- Whether a schedule keeps the required order: a `LoadRom` at most once, after `Reset` and before the first
`Step` (70 R152, D30). `mayLoad` says whether one may come now. -/
def Event.scheduleLegal : Bool → List Event → Bool
  | _, [] => true
  | _, .reset :: es => Event.scheduleLegal true es
  | mayLoad, .loadRom _ :: es => mayLoad && Event.scheduleLegal false es
  | _, .step :: es => Event.scheduleLegal false es
  | mayLoad, .timerTick :: es => Event.scheduleLegal mayLoad es
  | mayLoad, .keyUpdate _ :: es => Event.scheduleLegal mayLoad es
  | mayLoad, .hostRead :: es => Event.scheduleLegal mayLoad es

end Sys2Proof.Machine
end

