-- ==== Sys2Proof/Safety.lean ====
section
/-! DEFINITION. The terms claims are stated in: what a state keeps across an instruction, which pieces of state an
instruction may write, where it faults, the invariant every event keeps, and what a safe run is. -/

namespace Sys2Proof.Machine

/-- A safe state is a Running one. A Faulted state is never a successful end of a program: it is the fault
outcome of the run (60_exceptions.md rule R140; log 1). -/
def State.Safe (s : State) : Prop := s.run = .running

/-- A state some legal run reaches: events in a legal schedule, begun right after `Reset` with the given FONT
(10_state.md rule R24). -/
def Reachable (font : Font) (s : State) : Prop :=
  ∃ n es, Event.scheduleLegal true es = true ∧ runEvents es (State.resetWith font n) = .next s

/-- Every byte of memory reads as before. -/
def SameMemory (s t : State) : Prop := ∀ a, t.readByte a = s.readByte a

/-- Nothing but `pc` changes, and every byte of memory reads as before. -/
def OnlyPc (s t : State) : Prop := t = { s with pc := t.pc } ∧ SameMemory s t

/-- Nothing but `pc` and the one register `x` changes; every byte of memory reads as before. -/
def OnlyRegPc (x : Nibble) (s t : State) : Prop :=
  t = { s with V := t.V, pc := t.pc } ∧ (∀ y, y ≠ x → t.reg y = s.reg y) ∧ SameMemory s t

/-- Nothing but `pc`, the register `x` and the flag register VF changes; every byte of memory reads as before. -/
def OnlyRegFlagPc (x : Nibble) (s t : State) : Prop :=
  t = { s with V := t.V, pc := t.pc } ∧ (∀ y, y ≠ x → y ≠ 0xF → t.reg y = s.reg y) ∧ SameMemory s t

/-- Nothing but `pc` and memory changes, and of memory only the `n` bytes from `a0` on. -/
def OnlyMemPc (a0 n : Nat) (s t : State) : Prop :=
  t = { s with mem := t.mem, pc := t.pc } ∧
    ∀ a, a < a0 ∨ a0 + n ≤ a → t.readByte a = s.readByte a

/-- The state after `raise F` by an instruction whose word is `w`: `run` and the fault record are written and
nothing else (60_exceptions.md rule R139). -/
def raised (f : Fault) (w : Word) (s : State) : State :=
  { s with run := .faulted, fault := some ⟨f, s.pc, some w⟩ }

/-- The invariant every event keeps. `mem`: memory is in its one canonical form. `faultIff`: the record is there
exactly in Faulted (R20). `faultPc`: it names the instruction `pc` still points at (R139). `faultOpcode`: the word
is absent exactly for the two fetch faults (R130). `pcMax`: no rule stores a larger `pc` (R13). `stackEven`,
`stackMax`: every entry is the address after some CALL, even and at most 0x1000 (40_control_flow.md rule R71). -/
structure State.Inv (s : State) : Prop where
  mem : Memory.wf s.font s.mem
  faultIff : s.run = .faulted ↔ s.fault.isSome = true
  faultPc : ∀ r, s.fault = some r → r.pc = s.pc
  faultOpcode : ∀ r, s.fault = some r →
    (r.opcode = none ↔ (r.code = .fetchOutOfRange ∨ r.code = .fetchMisaligned))
  pcMax : s.pc.toNat ≤ 0x10FE
  stackEven : ∀ k (h : k < 16), s.stack[k].toNat % 2 = 0
  stackMax : ∀ k (h : k < 16), s.stack[k].toNat ≤ 0x1000

end Sys2Proof.Machine

namespace Sys2Proof

/-- The registers an instruction may write: its destination, `V[0] .. V[x]` for a block load, and VF for the six
instructions that write the flag register (10_state.md rule R11). -/
def Instr.writesReg : Instr → Nibble → Bool
  | .ldVxKk x _, r => r == x
  | .addVxKk x _, r => r == x
  | .ldVxVy x _, r => r == x
  | .orVxVy x _, r => r == x
  | .andVxVy x _, r => r == x
  | .xorVxVy x _, r => r == x
  | .addVxVy x _, r => r == x || r == 0xF
  | .subVxVy x _, r => r == x || r == 0xF
  | .shrVx x _, r => r == x || r == 0xF
  | .subnVxVy x _, r => r == x || r == 0xF
  | .shlVx x _, r => r == x || r == 0xF
  | .rnd x _, r => r == x
  | .drw _ _ _, r => r == 0xF
  | .ldVxDt x, r => r == x
  | .ldVxK x, r => r == x
  | .ldVxMem x, r => decide (r.toNat ≤ x.toNat)
  | _, _ => false

/-- How many bytes from `I` on an instruction stores (20_memory.md rule R37). -/
def Instr.storedBytes : Instr → Nat
  | .ldB _ => 3
  | .ldMemVx x => x.toNat + 1
  | _ => 0

/-- The fault an instruction raises in a state, by the conditions of 60_exceptions.md rules R130 to R133;
no other instruction and no other condition faults. -/
def Instr.faultIn (s : Machine.State) : Instr → Option Machine.Fault
  | .call _ => if s.sp.val = 16 then some .stackOverflow else none
  | .ret => if s.sp.val = 0 then some .stackUnderflow else none
  | .ldB _ => if s.I.toNat + 2 > 0xFFF then some .memOutOfRange else none
  | .ldMemVx x => if s.I.toNat + x.toNat > 0xFFF then some .memOutOfRange else none
  | .ldVxMem x => if s.I.toNat + x.toNat > 0xFFF then some .memOutOfRange else none
  | .drw _ _ n => if n.toNat > 0 ∧ s.I.toNat + n.toNat - 1 > 0xFFF then some .memOutOfRange else none
  | _ => none

end Sys2Proof
end

