-- ==== Sys2Proof/Certificates/Slice0/Obligations.lean ====
section
/-! DEFINITION. The statements for the provers: what the spec's numbered rules say the CORE does. Every statement
holds for every font and every draw of rnd(): both are free in them (logs 2, 3). A clause `decode ... = ...` of a
statement about an instruction says its Encoding line: the bit patterns but 00E0, 0nnn and 1nnn are the spec's general
knowledge (K1, log 5). That a fault is a next state is the form of the model, log 1. -/

open Sys2Proof Sys2Proof.Machine

/-! ## Encoding and decoding (30_encoding.md) -/

/-- Decoding the word of a well-formed instruction gives it back with every operand at every value, and so do its
two bytes. 30_encoding.md sections 1 to 3; the bit patterns are the spec's general knowledge (K1, log 5). -/
def Obligations.DecodeOfEncodeIsTheInstruction : Prop :=
  ∀ i : Instr, WellFormed i = true →
    decode (encode i) = .instr i ∧ decodeBytes (encodeBytes i) = .ok (i, [])

/-- Where a word is an instruction, that instruction is well-formed and its encoding is the word: no two words mean
one instruction. So the word an instruction's fault records is the word fetched (60_exceptions.md section 4). -/
def Obligations.EncodeOfDecodeIsTheWord : Prop :=
  ∀ (w : Word) (i : Instr), decode w = .instr i → encode i = w ∧ WellFormed i = true

/-- A few words written out from the table of 95_test_vectors.md section 2.1. -/
def Obligations.WrittenOutWordsDecode : Prop :=
  decode 0x0000 = .instr (.sys 0x000) ∧ decode 0x00E0 = .instr .cls ∧ decode 0x00EE = .instr .ret ∧
  decode 0x00E1 = .instr (.sys 0x0E1) ∧ decode 0x1ABC = .instr (.jp 0xABC) ∧
  decode 0x3A7F = .instr (.seVxKk 0xA 0x7F) ∧ decode 0x8AB5 = .instr (.subVxVy 0xA 0xB) ∧
  decode 0x8AB7 = .instr (.subnVxVy 0xA 0xB) ∧ decode 0xDAB5 = .instr (.drw 0xA 0xB 5) ∧
  decode 0xEAA1 = .instr (.sknp 0xA) ∧ decode 0xFA55 = .instr (.ldMemVx 0xA) ∧ decode 0x5AB1 = .unknown

/-- UNKNOWN is exactly the space of the table of R56 (30_encoding.md section 4), the low nibble of the 0x5 and 0x9
families included, which is the spec's decision D8. -/
def Obligations.UnknownSpaceIsExactlyTheTables : Prop :=
  ∀ w : Word, decode w = .unknown ↔
    ((w.toNat / 4096 = 0x5 ∧ w.toNat % 16 ≠ 0) ∨
     (w.toNat / 4096 = 0x8 ∧ w.toNat % 16 ∈ [0x8, 0x9, 0xA, 0xB, 0xC, 0xD, 0xF]) ∨
     (w.toNat / 4096 = 0x9 ∧ w.toNat % 16 ≠ 0) ∨
     (w.toNat / 4096 = 0xE ∧ w.toNat % 256 ∉ [0x9E, 0xA1]) ∨
     (w.toNat / 4096 = 0xF ∧
       w.toNat % 256 ∉ [0x07, 0x0A, 0x15, 0x18, 0x1E, 0x29, 0x33, 0x55, 0x65]))

/-- The literals CLS and RET win over `0nnn`, and every other word below 0x1000 is SYS with its low 12 bits
(30_encoding.md section 3, R54 and R57). -/
def Obligations.LiteralPatternsWinInTheZeroFamily : Prop :=
  ∀ w : Word, w.toNat < 0x1000 →
    decode w = if w.toNat = 0x0E0 then .instr .cls
      else if w.toNat = 0x0EE then .instr .ret
      else .instr (.sys (BitVec.ofNat 12 w.toNat))

/-! ## The Step event (10_state.md section 12, 20_memory.md section 3) -/

/-- A Step of a Running machine at an even `pc` of at most 0xFFE, whose two bytes there, high byte first, are the
word of an instruction, is that instruction's `exec`: nothing is added around it, `pc` is the instruction's own
address. The Step owns fetch and advance by the spec's decision D1. Which `pc` may be fetched at: D11, D12 (log 6);
a fetch at 0xFFE takes in byte 0xFFF, as 90_conflicts.md C3 has it. -/
def Obligations.StepRunsTheDecodedInstruction : Prop :=
  ∀ (s : State) (i : Instr), s.run = .running → s.pc.toNat % 2 = 0 → s.pc.toNat ≤ 0xFFE →
    decode (s.readByte s.pc.toNat ++ s.readByte (s.pc.toNat + 1)) = .instr i →
    step s = exec i s

/-- A Step on an UNKNOWN word advances `pc` by 2 and does nothing else: no fault, nothing recorded (30_encoding.md
section 4, 60_exceptions.md section 1; D10). -/
def Obligations.UnknownWordIsANoOp : Prop :=
  ∀ s : State, s.run = .running → s.pc.toNat % 2 = 0 → s.pc.toNat ≤ 0xFFE →
    decode (s.readByte s.pc.toNat ++ s.readByte (s.pc.toNat + 1)) = .unknown →
    step s = .next { s with pc := s.pc + 2 }

/-- The two fetch faults, the misalignment first, with no opcode in the record and nothing else changed
(20_memory.md section 3, 60_exceptions.md sections 1 and 3; D11, D12, D34). -/
def Obligations.FetchFaultsAreTakenBeforeTheFetch : Prop :=
  ∀ s : State, s.run = .running →
    (s.pc.toNat % 2 = 1 →
      step s = .next { s with run := .faulted, fault := some ⟨.fetchMisaligned, s.pc, none⟩ }) ∧
    (s.pc.toNat % 2 = 0 → s.pc.toNat > 0xFFE →
      step s = .next { s with run := .faulted, fault := some ⟨.fetchOutOfRange, s.pc, none⟩ })

/-- Faulted is terminal: Step, TimerTick, KeyUpdate and HostRead change nothing, HostRead shows the record and the
last picture, NO event but Reset leaves Faulted or touches the record, a LoadRom included (one that the required
order allows or not, D30), and Reset does leave it (60_exceptions.md section 5, 70_reset_and_hazards.md section 1;
D15, D18, log 6). -/
def Obligations.FaultedIsLeftOnlyByReset : Prop :=
  ∀ s : State, s.run = .faulted →
    step s = .next s ∧ s.timerTick = s ∧ (∀ mask, s.keyUpdate mask = s) ∧
    Event.apply .hostRead s = .next s ∧ s.hostRead = ⟨s.fb, s.tone, .faulted, s.fault⟩ ∧
    (∀ bytes t, Event.apply (.loadRom bytes) s = .next t → t.run = .faulted ∧ t.fault = s.fault) ∧
    (∀ e t, e ≠ .reset → Event.apply e s = .next t → t.run = .faulted ∧ t.fault = s.fault) ∧
    ∃ t, Event.apply .reset s = .next t ∧ t.run = .running ∧ t.fault = none

/-- Fault entry: whatever Step faults writes `run` and the record {code, pc0, opcode} and nothing else, the opcode
being the fetched word, or absent for the two fetch faults (60_exceptions.md section 4; D14). -/
def Obligations.FaultEntryIsPrecise : Prop :=
  ∀ s t : State, s.run = .running → step s = .next t → t.run = .faulted →
    ∃ r : FaultRecord, t = { s with run := .faulted, fault := some r } ∧ r.pc = s.pc ∧
      (r.opcode = none ↔ (r.code = .fetchOutOfRange ∨ r.code = .fetchMisaligned)) ∧
      (∀ w, r.opcode = some w → w = s.readByte s.pc.toNat ++ s.readByte (s.pc.toNat + 1))

/-- Which instruction faults, and when, exactly: CALL on a full stack, RET on an empty one, and the four memory
instructions when a byte they touch lies above 0xFFF, so that an access ending at byte 0xFFF is in range (D16,
90_conflicts.md C3). Where the condition holds the instruction takes that fault and changes nothing else; where it
does not, the instruction completes with `run` and `fault` as they were (60_exceptions.md sections 1 and 4; the
names D13 and the precise entry D14; log 6). -/
def Obligations.InstructionsFaultExactlyWhenListed : Prop :=
  ∀ (i : Instr) (s : State),
    (∀ f, i.faultIn s = some f → exec i s = .next (raised f (encode i) s)) ∧
    (i.faultIn s = none → ∃ t, exec i s = .next t ∧ t.run = s.run ∧ t.fault = s.fault)

/-- Nothing stops the model: every instruction and every Step, in every state, answers a next state. Model's own:
a fault is a state, log 1. -/
def Obligations.EveryStepAnswersANextState : Prop :=
  (∀ (i : Instr) (s : State), ∃ t, exec i s = .next t) ∧ ∀ s : State, ∃ t, step s = .next t

/-- The host's placing of an instruction: in any state, the very next Step runs exactly the instruction placed; in a
Running state with a fetchable `pc`, only the two bytes there change. -/
def Obligations.PlacedInstructionRunsNext : Prop :=
  ∀ (s : State) (w : Word),
    (∀ i, decode w = .instr i → step (s.withFetchWord 16 w.toNat) = exec i (s.withFetchWord 16 w.toNat)) ∧
    (s.run = .running → s.pc.toNat % 2 = 0 → s.pc.toNat ≤ 0xFFE →
      s.withFetchWord 16 w.toNat = { s with mem := (s.withFetchWord 16 w.toNat).mem } ∧
      ∀ a, a ≠ s.pc.toNat → a ≠ s.pc.toNat + 1 → (s.withFetchWord 16 w.toNat).readByte a = s.readByte a)

/-! ## Reset and the registers (10_state.md) -/

/-- The state after Reset, for every FONT, and the Reset event giving it again in any state, Faulted included, with
the FONT of the machine: 10_state.md section 13, 70_reset_and_hazards.md section 1. The zeros of `I`, `dt`, `st`, `fb`,
`keys` and `run`, and the repeatable reset, are the spec's decision D18 (log 6). -/
def Obligations.ResetLeavesTheStatedValues : Prop :=
  (∀ (font : Font) (n : Nat) (s : State), s = State.resetWith font n →
    (∀ x, s.reg x = 0) ∧ s.I = 0 ∧ s.pc = 0x200 ∧ s.sp.val = 0 ∧
    (∀ k (h : k < 16), s.stack[k] = 0) ∧ s.dt = 0 ∧ s.st = 0 ∧
    (∀ a (h : a < 80), s.readByte a = font[a]) ∧ (∀ a, 80 ≤ a → s.readByte a = 0) ∧
    (∀ x y (hx : x < 64) (hy : y < 32), s.fb[y][x] = false) ∧
    s.keys = 0 ∧ s.run = .running ∧ s.fault = none ∧ s.tone = false) ∧
  (∀ s : State, Event.apply .reset s = .next (State.resetWith s.font s.rndDraws))

/-- 16 general registers in one bank with no alias and none hard-wired: a write to any of them, VF included, is
read back and leaves the 15 others; an unwritten register holds 0x00 after reset (10_state.md R10). -/
def Obligations.RegistersAreOneBankNoneHardWired : Prop :=
  (∀ (s : State) (x y : Nibble) (b : Byte), (s.setReg x b).reg y = if y = x then b else s.reg y) ∧
  (∀ (font : Font) (n : Nat) (x : Nibble), (State.resetWith font n).reg x = 0) ∧
  (∀ (s : State) (x : Nibble) (kk : Byte), ∃ t, exec (.ldVxKk x kk) s = .next t ∧ t.reg x = kk)

/-! ## Invariants -/

/-- Right after Reset the invariant holds, for every FONT. -/
def Obligations.InvariantHoldsAtReset : Prop :=
  ∀ (font : Font) (n : Nat), (State.resetWith font n).Inv

/-- Every Step keeps the invariant: memory in its canonical form, a fault record exactly in Faulted that names the
instruction `pc` points at, `pc` at most 0x10FE (10_state.md section 4), every stack entry even and at most 0x1000
(40_control_flow.md, RET). -/
def Obligations.EveryStepKeepsTheInvariant : Prop :=
  ∀ s t : State, s.Inv → step s = .next t → t.Inv

/-- Every event of the host keeps the invariant too, a LoadRom it accepts included. -/
def Obligations.EveryEventKeepsTheInvariant : Prop :=
  ∀ (e : Event) (s t : State), s.Inv → e.apply s = .next t → t.Inv

/-- Every state a legal run reaches, under any schedule of events, with any program loaded and any FONT, meets the
invariant, holds the FONT it started with, and is Running or Faulted with a record that names the instruction at `pc`. -/
def Obligations.ReachableStatesMeetTheInvariant : Prop :=
  ∀ (font : Font) (s : State), Reachable font s →
    s.Inv ∧ s.font = font ∧ (s.Safe ∨ ∃ r, s.fault = some r ∧ r.pc = s.pc)

/-! ## Control transfer (40_control_flow.md) -/

/-- SYS is a no-op that advances `pc` (40_control_flow.md, SYS; D9). -/
def Obligations.SysOnlyAdvances : Prop :=
  ∀ (s : State) (nnn : Addr),
    ∃ t, exec (.sys nnn) s = .next t ∧ t.pc = s.pc + 2 ∧ OnlyPc s t

/-- RET (40_control_flow.md, RET). The popped entry's bits stay; in a state that meets the invariant the value is even and at most
0x1000, and a popped 0x1000 faults at the next fetch. That a fault changes nothing else is D14, that the popped
entry's bits stay D17, the fetch fault D12 (log 6). -/
def Obligations.RetPopsTheReturnAddress : Prop :=
  decode 0x00EE = .instr .ret ∧
  ∀ s : State,
    (s.sp.val = 0 → exec .ret s = .next (raised .stackUnderflow 0x00EE s)) ∧
    (∀ h : 0 < s.sp.val, ∃ t, exec .ret s = .next t ∧ t.sp.val = s.sp.val - 1 ∧
      t.pc = s.stack[s.sp.val - 1]'(by have := s.sp.isLt; omega) ∧
      t = { s with sp := t.sp, pc := t.pc } ∧ SameMemory s t ∧
      (s.Inv → t.pc.toNat % 2 = 0 ∧ t.pc.toNat ≤ 0x1000) ∧
      (t.run = .running → t.pc = 0x1000 →
        step t = .next { t with run := .faulted, fault := some ⟨.fetchOutOfRange, 0x1000, none⟩ }))

/-- JP nnn: `pc` is `nnn`, nothing else changes; the jump itself checks nothing; an odd target faults
FetchMisaligned at the next Step, which is the spec's decision D11 (log 6); an even target can be fetched (the
instruction there may still fault); a jump to its own address changes no state (40_control_flow.md, JP). -/
def Obligations.JpSetsThePc : Prop :=
  ∀ (s : State) (nnn : Addr), decode (0x1#4 ++ nnn) = .instr (.jp nnn) ∧
    ∃ t, exec (.jp nnn) s = .next t ∧ t.pc.toNat = nnn.toNat ∧ OnlyPc s t ∧
      (s.pc.toNat = nnn.toNat → t = s) ∧
      (t.run = .running → nnn.toNat % 2 = 1 →
        step t = .next { t with run := .faulted, fault := some ⟨.fetchMisaligned, t.pc, none⟩ }) ∧
      (nnn.toNat % 2 = 0 → ∃ w, t.fetch = .ok w)

/-- JP V0, nnn: the unmasked sum, at most 0x10FE; the register added is always V0 (40_control_flow.md, JP; D29). -/
def Obligations.JpV0AddsV0Unmasked : Prop :=
  ∀ (s : State) (nnn : Addr),
    ∃ t, exec (.jpV0 nnn) s = .next t ∧ t.pc.toNat = nnn.toNat + (s.reg 0).toNat ∧ OnlyPc s t

/-- CALL nnn (40_control_flow.md, CALL): a full stack faults and changes nothing else; otherwise the address of the NEXT
instruction is pushed at `stack[sp]`, every other entry and all else stay. That a fault changes nothing else is D14,
the stack's form D17 (log 6). -/
def Obligations.CallPushesTheNextAddress : Prop :=
  ∀ (s : State) (nnn : Addr), decode (0x2#4 ++ nnn) = .instr (.call nnn) ∧
    (s.sp.val = 16 → exec (.call nnn) s = .next (raised .stackOverflow (0x2#4 ++ nnn) s)) ∧
    (∀ h : s.sp.val < 16, ∃ t, exec (.call nnn) s = .next t ∧ t.stack[s.sp.val] = s.pc + 2 ∧
      (∀ k (hk : k < 16), k ≠ s.sp.val → t.stack[k] = s.stack[k]) ∧
      t.sp.val = s.sp.val + 1 ∧ t.pc.toNat = nnn.toNat ∧
      t = { s with stack := t.stack, sp := t.sp, pc := t.pc } ∧ SameMemory s t)

/-- A RET that finds the stack as a CALL left it comes back to the instruction after the call, with the depth there
was before it (95_test_vectors.md S5; 40_control_flow.md, CALL and RET). -/
def Obligations.RetComesBackAfterTheCall : Prop :=
  ∀ (s t u : State) (nnn : Addr), s.sp.val < 16 → exec (.call nnn) s = .next t →
    u.sp = t.sp → u.stack = t.stack →
    ∃ w, exec .ret u = .next w ∧ w.pc = s.pc + 2 ∧ w.sp = s.sp ∧
      (∀ k (h : k < s.sp.val), w.stack[k]'(by have := s.sp.isLt; omega) = s.stack[k]'(by have := s.sp.isLt; omega))

/-- SE Vx, kk and SNE Vx, kk (R75, R76): `pc + 4` on match, or on mismatch, else `pc + 2`; nothing else changes. -/
def Obligations.SkipsComparingWithAnImmediate : Prop :=
  ∀ (s : State) (x : Nibble) (kk : Byte),
    decode (0x3#4 ++ x ++ kk) = .instr (.seVxKk x kk) ∧ decode (0x4#4 ++ x ++ kk) = .instr (.sneVxKk x kk) ∧
    (∃ t, exec (.seVxKk x kk) s = .next t ∧ OnlyPc s t ∧
      t.pc = if (s.reg x).toNat = kk.toNat then s.pc + 4 else s.pc + 2) ∧
    (∃ t, exec (.sneVxKk x kk) s = .next t ∧ OnlyPc s t ∧
      t.pc = if (s.reg x).toNat = kk.toNat then s.pc + 2 else s.pc + 4)

/-- SE Vx, Vy and SNE Vx, Vy (R77, R78), low nibble 0; with `x = y` SE always skips and SNE never does. -/
def Obligations.SkipsComparingTwoRegisters : Prop :=
  ∀ (s : State) (x y : Nibble),
    decode (0x5#4 ++ x ++ y ++ 0#4) = .instr (.seVxVy x y) ∧
    decode (0x9#4 ++ x ++ y ++ 0#4) = .instr (.sneVxVy x y) ∧
    (∃ t, exec (.seVxVy x y) s = .next t ∧ OnlyPc s t ∧
      t.pc = if (s.reg x).toNat = (s.reg y).toNat then s.pc + 4 else s.pc + 2) ∧
    (∃ t, exec (.sneVxVy x y) s = .next t ∧ OnlyPc s t ∧
      t.pc = if (s.reg x).toNat = (s.reg y).toNat then s.pc + 2 else s.pc + 4)

/-! ## Register loads and the ALU (41_load_alu.md) -/

/-- LD Vx, kk and LD Vx, Vy (R81, R82): direct assignment; no flag, no other register. -/
def Obligations.LoadsAssignOneRegister : Prop :=
  ∀ (s : State) (x y : Nibble) (kk : Byte),
    decode (0x6#4 ++ x ++ kk) = .instr (.ldVxKk x kk) ∧
    decode (0x8#4 ++ x ++ y ++ 0x0#4) = .instr (.ldVxVy x y) ∧
    (∃ t, exec (.ldVxKk x kk) s = .next t ∧ t.reg x = kk ∧ t.pc = s.pc + 2 ∧ OnlyRegPc x s t) ∧
    (∃ t, exec (.ldVxVy x y) s = .next t ∧ t.reg x = s.reg y ∧ t.pc = s.pc + 2 ∧ OnlyRegPc x s t)

/-- ADD Vx, kk (R83): wraps at 8 bits and leaves the flag register alone, whatever the sum. -/
def Obligations.AddImmediateWrapsAndSetsNoFlag : Prop :=
  ∀ (s : State) (x : Nibble) (kk : Byte), decode (0x7#4 ++ x ++ kk) = .instr (.addVxKk x kk) ∧
    ∃ t, exec (.addVxKk x kk) s = .next t ∧ (t.reg x).toNat = ((s.reg x).toNat + kk.toNat) % 256 ∧
      t.pc = s.pc + 2 ∧ OnlyRegPc x s t

/-- OR, AND, XOR (R84, R85, R86): bit by bit, in place; the flag register is left alone. -/
def Obligations.BitwiseOperationsSetNoFlag : Prop :=
  ∀ (s : State) (x y : Nibble),
    decode (0x8#4 ++ x ++ y ++ 0x1#4) = .instr (.orVxVy x y) ∧
    decode (0x8#4 ++ x ++ y ++ 0x2#4) = .instr (.andVxVy x y) ∧
    decode (0x8#4 ++ x ++ y ++ 0x3#4) = .instr (.xorVxVy x y) ∧
    (∃ t, exec (.orVxVy x y) s = .next t ∧ t.pc = s.pc + 2 ∧ OnlyRegPc x s t ∧
      ∀ k, (t.reg x).getLsbD k = ((s.reg x).getLsbD k || (s.reg y).getLsbD k)) ∧
    (∃ t, exec (.andVxVy x y) s = .next t ∧ t.pc = s.pc + 2 ∧ OnlyRegPc x s t ∧
      ∀ k, (t.reg x).getLsbD k = ((s.reg x).getLsbD k && (s.reg y).getLsbD k)) ∧
    (∃ t, exec (.xorVxVy x y) s = .next t ∧ t.pc = s.pc + 2 ∧ OnlyRegPc x s t ∧
      ∀ k, (t.reg x).getLsbD k = ((s.reg x).getLsbD k != (s.reg y).getLsbD k))

/-- ADD Vx, Vy (R87): the sum modulo 256, VF = 1 iff the sum is 256 or more; with `x = 0xF` the flag wins. That the
flag wins when `x = 0xF` is the spec's decision D19 (41_load_alu.md, Conventions of the family; log 6). -/
def Obligations.AddSetsTheCarry : Prop :=
  ∀ (s : State) (x y : Nibble), decode (0x8#4 ++ x ++ y ++ 0x4#4) = .instr (.addVxVy x y) ∧
    ∃ t, exec (.addVxVy x y) s = .next t ∧ t.pc = s.pc + 2 ∧ OnlyRegFlagPc x s t ∧
      t.reg 0xF = (if (s.reg x).toNat + (s.reg y).toNat ≥ 256 then 1 else 0) ∧
      (x ≠ 0xF → (t.reg x).toNat = ((s.reg x).toNat + (s.reg y).toNat) % 256)

/-- SUB Vx, Vy (R88) and SUBN Vx, Vy (R89): the difference modulo 256, VF = 1 iff the minuend is STRICTLY greater,
so equal operands leave VF = 0; with `x = 0xF` the flag wins. That the flag wins when `x = 0xF` is the spec's
decision D19 (41_load_alu.md, Conventions of the family; log 6). -/
def Obligations.SubtractsSetStrictlyGreater : Prop :=
  ∀ (s : State) (x y : Nibble),
    decode (0x8#4 ++ x ++ y ++ 0x5#4) = .instr (.subVxVy x y) ∧
    decode (0x8#4 ++ x ++ y ++ 0x7#4) = .instr (.subnVxVy x y) ∧
    (∃ t, exec (.subVxVy x y) s = .next t ∧ t.pc = s.pc + 2 ∧ OnlyRegFlagPc x s t ∧
      t.reg 0xF = (if (s.reg x).toNat > (s.reg y).toNat then 1 else 0) ∧
      (x ≠ 0xF → ((t.reg x).toNat : Int) = ((s.reg x).toNat - (s.reg y).toNat : Int) % 256)) ∧
    (∃ t, exec (.subnVxVy x y) s = .next t ∧ t.pc = s.pc + 2 ∧ OnlyRegFlagPc x s t ∧
      t.reg 0xF = (if (s.reg y).toNat > (s.reg x).toNat then 1 else 0) ∧
      (x ≠ 0xF → ((t.reg x).toNat : Int) = ((s.reg y).toNat - (s.reg x).toNat : Int) % 256))

/-- SHR Vx and SHL Vx: logical shifts by one of Vx in place, VF the bit shifted out, Vy ignored (41_load_alu.md,
Shifts; D20). That the flag wins when `x = 0xF` is the spec's decision D19 (41_load_alu.md, Conventions of the
family; log 6). -/
def Obligations.ShiftsSetTheBitShiftedOut : Prop :=
  ∀ (s : State) (x y : Nibble),
    (∃ t, exec (.shrVx x y) s = .next t ∧ t.pc = s.pc + 2 ∧ OnlyRegFlagPc x s t ∧
      (t.reg 0xF).toNat = (s.reg x).toNat % 2 ∧ (x ≠ 0xF → (t.reg x).toNat = (s.reg x).toNat / 2)) ∧
    (∃ t, exec (.shlVx x y) s = .next t ∧ t.pc = s.pc + 2 ∧ OnlyRegFlagPc x s t ∧
      (t.reg 0xF).toNat = (s.reg x).toNat / 128 ∧ (x ≠ 0xF → (t.reg x).toNat = (s.reg x).toNat * 2 % 256))

/-- RND Vx, kk: the next draw of rnd() AND `kk`, so every bit outside `kk` is 0; one draw is made and nothing else
changes (41_load_alu.md, Random; D5). The draw is a free value (log 2): the statement holds whatever it is. -/
def Obligations.RndIsMaskedByTheImmediate : Prop :=
  ∀ (s : State) (x : Nibble) (kk : Byte),
    ∃ t, exec (.rnd x kk) s = .next t ∧ t.reg x = Config.rnd s.rndDraws &&& kk ∧
      (∀ k, kk.getLsbD k = false → (t.reg x).getLsbD k = false) ∧ t.pc = s.pc + 2 ∧
      OnlyRegPc x { s with rndDraws := s.rndDraws + 1 } t

/-! ## Index register and memory (42_index_memory.md) -/

/-- LD I, nnn (R100): the 12 bits zero-extended. A one-byte access at 0xFFF is in range, a two-byte one is not. That
byte 0xFFF is in range: D16, 90_conflicts.md C3 (log 6). -/
def Obligations.LdIZeroExtendsTheAddress : Prop :=
  ∀ (s : State) (nnn : Addr), decode (0xA#4 ++ nnn) = .instr (.ldI nnn) ∧
    ∃ t, exec (.ldI nnn) s = .next t ∧ t.I.toNat = nnn.toNat ∧ t.pc = s.pc + 2 ∧
      t = { s with I := t.I, pc := t.pc } ∧ SameMemory s t ∧
      (nnn = 0xFFF → t.memRead t.I.toNat 1 = some [t.readByte 0xFFF] ∧ t.memRead t.I.toNat 2 = none)

/-- LD F, Vx: `5 * V[x]` for all 256 values; ADD I, Vx: modulo 65536 with VF untouched (42_index_memory.md, Index
register loads and Index arithmetic; D29, D35). -/
def Obligations.IndexArithmeticIsSixteenBits : Prop :=
  ∀ (s : State) (x : Nibble),
    (∃ t, exec (.ldF x) s = .next t ∧ t.I.toNat = 5 * (s.reg x).toNat ∧ t.pc = s.pc + 2 ∧
      t = { s with I := t.I, pc := t.pc } ∧ SameMemory s t) ∧
    (∃ t, exec (.addI x) s = .next t ∧ t.I.toNat = (s.I.toNat + (s.reg x).toNat) % 65536 ∧ t.pc = s.pc + 2 ∧
      t = { s with I := t.I, pc := t.pc } ∧ SameMemory s t)

/-- LD B, Vx (R102): hundreds, tens, ones at I, I+1, I+2, and no other byte; above 0xFFD it faults and writes
nothing. An access ending at byte 0xFFF is in range: D16, 90_conflicts.md C3; that a fault changes nothing else: D14
(log 6). -/
def Obligations.BcdWritesThreeDigits : Prop :=
  ∀ (s : State) (x : Nibble), decode (0xF#4 ++ x ++ 0x33#8) = .instr (.ldB x) ∧
    (s.I.toNat ≤ 0xFFD → ∃ t, exec (.ldB x) s = .next t ∧
      (t.readByte s.I.toNat).toNat = (s.reg x).toNat / 100 ∧
      (t.readByte (s.I.toNat + 1)).toNat = (s.reg x).toNat / 10 % 10 ∧
      (t.readByte (s.I.toNat + 2)).toNat = (s.reg x).toNat % 10 ∧
      t.pc = s.pc + 2 ∧ OnlyMemPc s.I.toNat 3 s t) ∧
    (s.I.toNat > 0xFFD → exec (.ldB x) s = .next (raised .memOutOfRange (0xF#4 ++ x ++ 0x33#8) s))

/-- LD [I], Vx: V0 to Vx INCLUSIVE to memory from `I` on, `I` unchanged; out of range it faults and writes nothing
(42_index_memory.md, Register block transfers; C6, D21). An access ending at byte 0xFFF is in range: D16,
90_conflicts.md C3; that a fault changes nothing else: D14 (log 6). -/
def Obligations.BlockStoreWritesV0ToVx : Prop :=
  ∀ (s : State) (x : Nibble),
    (s.I.toNat + x.toNat ≤ 0xFFF → ∃ t, exec (.ldMemVx x) s = .next t ∧
      (∀ r : Nibble, r.toNat ≤ x.toNat → t.readByte (s.I.toNat + r.toNat) = s.reg r) ∧
      t.pc = s.pc + 2 ∧ OnlyMemPc s.I.toNat (x.toNat + 1) s t) ∧
    (s.I.toNat + x.toNat > 0xFFF →
      exec (.ldMemVx x) s = .next (raised .memOutOfRange (0xF#4 ++ x ++ 0x55#8) s))

/-- LD Vx, [I]: memory from `I` on to V0 to Vx INCLUSIVE, registers above x and `I` unchanged; out of range it
faults and writes nothing (42_index_memory.md, Register block transfers; C6, D21). An access ending at byte 0xFFF is
in range: D16, 90_conflicts.md C3; that a fault changes nothing else: D14 (log 6). -/
def Obligations.BlockLoadReadsV0ToVx : Prop :=
  ∀ (s : State) (x : Nibble),
    (s.I.toNat + x.toNat ≤ 0xFFF → ∃ t, exec (.ldVxMem x) s = .next t ∧
      (∀ r : Nibble, r.toNat ≤ x.toNat → t.reg r = s.readByte (s.I.toNat + r.toNat)) ∧
      (∀ r : Nibble, x.toNat < r.toNat → t.reg r = s.reg r) ∧
      t = { s with V := t.V, pc := t.pc } ∧ t.pc = s.pc + 2 ∧ SameMemory s t) ∧
    (s.I.toNat + x.toNat > 0xFFF →
      exec (.ldVxMem x) s = .next (raised .memOutOfRange (0xF#4 ++ x ++ 0x65#8) s))

/-- A block load from where a block store wrote brings the registers back, whatever happened to the other registers
in between (42_index_memory.md, Register block transfers). An access ending at byte 0xFFF is in range: D16,
90_conflicts.md C3 (log 6). -/
def Obligations.BlockLoadUndoesBlockStore : Prop :=
  ∀ (s t u : State) (x : Nibble), s.I.toNat + x.toNat ≤ 0xFFF → exec (.ldMemVx x) s = .next t →
    u.I = s.I → u.mem = t.mem → u.font = t.font →
    ∃ w, exec (.ldVxMem x) u = .next w ∧ ∀ r : Nibble, r.toNat ≤ x.toNat → w.reg r = s.reg r

/-! ## The framebuffer (43_display.md) -/

/-- CLS (R111, R114): all 2048 pixels off; VF and all else untouched. -/
def Obligations.ClsClearsEveryPixel : Prop :=
  decode 0x00E0 = .instr .cls ∧
  ∀ s : State, ∃ t, exec .cls s = .next t ∧ (∀ x y (hx : x < 64) (hy : y < 32), t.fb[y][x] = false) ∧
    t.pc = s.pc + 2 ∧ t = { s with fb := t.fb, pc := t.pc } ∧ SameMemory s t

/-- DRW Vx, Vy, n. In range: a pixel is inverted iff a 1 bit of a sprite row lands on it, coordinates wrapping per
pixel, bit 7 of a byte leftmost; VF is 1 iff some pixel went from on to off, else 0, and is always written; `I` and
all else is untouched. Out of range: it faults before any pixel or VF changes (43_display.md sections 1 and 2; the
bit order is D25, log 5; D14). An access ending at byte 0xFFF is in range: D16, 90_conflicts.md C3; that a fault
changes nothing else: D14 (log 6). -/
def Obligations.DrwXorsTheSpriteAndReportsCollision : Prop :=
  ∀ (s : State) (x y n : Nibble),
    ((n = 0 ∨ s.I.toNat + n.toNat - 1 ≤ 0xFFF) →
      ∃ t, exec (.drw x y n) s = .next t ∧
        (∀ px py (hx : px < 64) (hy : py < 32),
          t.fb[py][px] ≠ s.fb[py][px] ↔
            ∃ r c, r < n.toNat ∧ c < 8 ∧ (s.readByte (s.I.toNat + r)).getLsbD (7 - c) = true ∧
              ((s.reg x).toNat + c) % 64 = px ∧ ((s.reg y).toNat + r) % 32 = py) ∧
        (t.reg 0xF = 0 ∨ t.reg 0xF = 1) ∧
        (t.reg 0xF = 1 ↔ ∃ px py, ∃ (hx : px < 64) (hy : py < 32),
          s.fb[py][px] = true ∧ t.fb[py][px] = false) ∧
        (∀ r, r ≠ 0xF → t.reg r = s.reg r) ∧ t.pc = s.pc + 2 ∧
        t = { s with V := t.V, fb := t.fb, pc := t.pc } ∧ SameMemory s t) ∧
    (n ≠ 0 → s.I.toNat + n.toNat - 1 > 0xFFF →
      exec (.drw x y n) s = .next (raised .memOutOfRange (0xD#4 ++ x ++ y ++ n) s))

/-- Drawing the same sprite twice at the same place restores the framebuffer; the second draw reports a collision
iff some 1 bit of the sprite lands on a pixel that was off before the first, so against a cleared buffer iff the
sprite has a 1 bit (43_display.md sections 1 and 2; 95_test_vectors.md S6). The spec's corner case says 'iff the
sprite has a 1 bit' without 'against a cleared buffer', which its own Collision rule contradicts (log 9). `x` and
`y` are not 0xF, so that the first draw's flag is not a coordinate of the second. An access ending at byte 0xFFF is
in range: D16, 90_conflicts.md C3 (log 6). -/
def Obligations.DrawingTwiceRestoresTheFramebuffer : Prop :=
  ∀ (s t : State) (x y n : Nibble), x ≠ 0xF → y ≠ 0xF → (n = 0 ∨ s.I.toNat + n.toNat - 1 ≤ 0xFFF) →
    exec (.drw x y n) s = .next t →
    ∃ u, exec (.drw x y n) t = .next u ∧ u.fb = s.fb ∧
      (u.reg 0xF = 1 ↔ ∃ r c, r < n.toNat ∧ c < 8 ∧
        (s.readByte (s.I.toNat + r)).getLsbD (7 - c) = true ∧
        Framebuffer.pixel s.fb ((s.reg x).toNat + c) ((s.reg y).toNat + r) = false) ∧
      ((∀ px py, Framebuffer.pixel s.fb px py = false) →
        (u.reg 0xF = 1 ↔ ∃ r k, r < n.toNat ∧ k < 8 ∧ (s.readByte (s.I.toNat + r)).getLsbD k = true))

/-- DRW with `n = 0` reads no byte, changes no pixel, cannot fault whatever `I` holds, and writes VF 0
(43_display.md section 2; D24). -/
def Obligations.DrwOfNoRowsOnlyClearsTheFlag : Prop :=
  ∀ (s : State) (x y : Nibble),
    ∃ t, exec (.drw x y 0) s = .next t ∧ t.fb = s.fb ∧ t.reg 0xF = 0 ∧ t.pc = s.pc + 2 ∧ OnlyRegPc 0xF s t

/-! ## Input latch and timers (44_input_timers.md) -/

/-- SKP and SKNP: the key V[x] names is pressed iff V[x] is at most 15 and its bit of the latch is set; an index of
16 or more names no key (44_input_timers.md sections 1 and 2; D22). -/
def Obligations.KeySkipsTestTheLatch : Prop :=
  ∀ (s : State) (x : Nibble),
    (∃ t, exec (.skp x) s = .next t ∧ OnlyPc s t ∧
      t.pc = if (s.reg x).toNat ≤ 15 ∧ s.keys.getLsbD (s.reg x).toNat = true then s.pc + 4 else s.pc + 2) ∧
    (∃ t, exec (.sknp x) s = .next t ∧ OnlyPc s t ∧
      t.pc = if (s.reg x).toNat ≤ 15 ∧ s.keys.getLsbD (s.reg x).toNat = true then s.pc + 2 else s.pc + 4)

/-- LD Vx, K: with no key held nothing changes, `pc` included; with some key held the lowest one's index goes to Vx
and `pc` advances (44_input_timers.md section 3; C2, D23). -/
def Obligations.KeyWaitTakesTheLowestKey : Prop :=
  ∀ (s : State) (x : Nibble),
    (s.keys = 0 → exec (.ldVxK x) s = .next s) ∧
    (s.keys ≠ 0 → ∃ t, exec (.ldVxK x) s = .next t ∧ (t.reg x).toNat ≤ 15 ∧
      s.keys.getLsbD (t.reg x).toNat = true ∧ (∀ j, j < (t.reg x).toNat → s.keys.getLsbD j = false) ∧
      t.pc = s.pc + 2 ∧ OnlyRegPc x s t)

/-- LD Vx, DT (R124), LD DT, Vx (R125), LD ST, Vx (R126): direct transfers; the tone follows `st` at once; the first
decrement is the next TimerTick's, and a timer written 0 stays 0. That a tick takes one from each timer is D31, that
the tone is `st` other than 0 is D32 (log 6). -/
def Obligations.TimerTransfersAreDirect : Prop :=
  ∀ (s : State) (x : Nibble),
    decode (0xF#4 ++ x ++ 0x07#8) = .instr (.ldVxDt x) ∧ decode (0xF#4 ++ x ++ 0x15#8) = .instr (.ldDtVx x) ∧
    decode (0xF#4 ++ x ++ 0x18#8) = .instr (.ldStVx x) ∧
    (∃ t, exec (.ldVxDt x) s = .next t ∧ t.reg x = s.dt ∧ t.pc = s.pc + 2 ∧ OnlyRegPc x s t) ∧
    (∃ t, exec (.ldDtVx x) s = .next t ∧ t.dt = s.reg x ∧ t.pc = s.pc + 2 ∧
      t = { s with dt := t.dt, pc := t.pc } ∧ SameMemory s t ∧
      (t.run = .running → t.timerTick.dt.toNat = (s.reg x).toNat - 1)) ∧
    (∃ t, exec (.ldStVx x) s = .next t ∧ t.st = s.reg x ∧ t.pc = s.pc + 2 ∧
      t = { s with st := t.st, pc := t.pc } ∧ SameMemory s t ∧ (t.tone = true ↔ s.reg x ≠ 0))

/-! ## The host's events (10_state.md section 12) -/

/-- TimerTick: both timers down by exactly one, clamped at 0, and nothing else (10_state.md section 12; D31). -/
def Obligations.TimerTickClampsAtZero : Prop :=
  ∀ s : State, s.run = .running →
    (s.timerTick.dt.toNat = s.dt.toNat - 1) ∧ (s.timerTick.st.toNat = s.st.toNat - 1) ∧
    s.timerTick = { s with dt := s.timerTick.dt, st := s.timerTick.st } ∧
    Event.apply .timerTick s = .next s.timerTick

/-- The latch is written by KeyUpdate only: any mask, nothing else changes; no Step, TimerTick, LoadRom or HostRead
writes it (10_state.md R19); Reset clears it. -/
def Obligations.OnlyKeyUpdateWritesTheLatch : Prop :=
  (∀ (s : State) (mask : Word), s.run = .running →
    Event.apply (.keyUpdate mask) s = .next { s with keys := mask }) ∧
  (∀ (e : Event) (s t : State), (∀ mask, e ≠ .keyUpdate mask) → e ≠ .reset → e.apply s = .next t →
    t.keys = s.keys) ∧
  (∀ (font : Font) (n : Nat), (State.resetWith font n).keys = 0)

/-- LoadRom: up to 3584 bytes go verbatim to memory from 0x200 and no other byte changes; a longer image is refused
(70_reset_and_hazards.md section 2; D30). Byte 0xFFF may be loaded: D30, 90_conflicts.md C3 (log 6). -/
def Obligations.LoadRomCopiesTheImage : Prop :=
  ∀ (s : State) (bytes : List Byte),
    (bytes.length ≤ 3584 → ∃ t, Event.apply (.loadRom bytes) s = .next t ∧
      (∀ k (h : k < bytes.length), t.readByte (0x200 + k) = bytes[k]) ∧
      (∀ a, a < 0x200 ∨ 0x200 + bytes.length ≤ a → t.readByte a = s.readByte a) ∧
      t = { s with mem := t.mem }) ∧
    (bytes.length > 3584 → Event.apply (.loadRom bytes) s = .refused .romTooLong)

/-- HostRead returns the pixels, the tone bit (1 iff `st` is not 0), `run` and `fault`, and changes no state
(43_display.md section 3, 10_state.md section 10; D26, D32). -/
def Obligations.HostReadChangesNothing : Prop :=
  ∀ s : State, Event.apply .hostRead s = .next s ∧ s.hostRead.fb = s.fb ∧
    (s.hostRead.tone = true ↔ s.st.toNat ≠ 0) ∧ s.hostRead.run = s.run ∧ s.hostRead.fault = s.fault

/-! ## Frames over all instructions -/

/-- No instruction writes a register other than its destination, V0 to Vx for a block load, and VF for the six that
write the flag (10_state.md section 2). -/
def Obligations.OnlyDestinationRegistersChange : Prop :=
  ∀ (i : Instr) (s t : State) (r : Nibble), exec i s = .next t → i.writesReg r = false → t.reg r = s.reg r

/-- After any of the six flag-writing instructions that does not fault, VF holds 0 or 1, whatever register is the
destination (10_state.md section 2, 41_load_alu.md section on the family's conventions; D19). -/
def Obligations.FlagWritersLeaveZeroOrOne : Prop :=
  ∀ (s t : State) (x y n : Nibble),
    (exec (.addVxVy x y) s = .next t ∨ exec (.subVxVy x y) s = .next t ∨ exec (.subnVxVy x y) s = .next t ∨
     exec (.shrVx x y) s = .next t ∨ exec (.shlVx x y) s = .next t ∨
     ((Instr.drw x y n).faultIn s = none ∧ exec (.drw x y n) s = .next t)) →
    t.reg 0xF = 0 ∨ t.reg 0xF = 1

/-- No instruction changes a byte of memory outside those it stores to: three from `I` for LD B, x + 1 from `I` for
LD [I], Vx, and none for the 33 others (20_memory.md section 6). -/
def Obligations.OnlyStoredBytesChange : Prop :=
  ∀ (i : Instr) (s t : State) (a : Nat), exec i s = .next t →
    (a < s.I.toNat ∨ s.I.toNat + i.storedBytes ≤ a) → t.readByte a = s.readByte a

/-- `I` is written by LD I, LD F and ADD I only, so LD B, LD [I], LD Vx,[I] and DRW leave it unchanged
(10_state.md section 3, 42_index_memory.md last section; D21). -/
def Obligations.OnlyThreeInstructionsWriteI : Prop :=
  ∀ (i : Instr) (s t : State), exec i s = .next t →
    (∀ nnn, i ≠ .ldI nnn) → (∀ x, i ≠ .ldF x) → (∀ x, i ≠ .addI x) → t.I = s.I

/-- The stack is touched by CALL and RET only, and its entries are written by CALL only (10_state.md section 5). -/
def Obligations.OnlyCallAndRetTouchTheStack : Prop :=
  ∀ (i : Instr) (s t : State), exec i s = .next t → (∀ nnn, i ≠ .call nnn) →
    t.stack = s.stack ∧ (i ≠ .ret → t.sp = s.sp)

/-- The devices: pixels change by CLS and DRW only, `dt` by LD DT only, `st` by LD ST only, the latch and the FONT by
no instruction, rnd() is drawn by RND only (10_state.md sections 6, 8, 9; 60_exceptions.md section 8). -/
def Obligations.DevicesChangeByTheirOwnInstructions : Prop :=
  ∀ (i : Instr) (s t : State), exec i s = .next t →
    (i ≠ .cls → (∀ x y n, i ≠ .drw x y n) → t.fb = s.fb) ∧
    ((∀ x, i ≠ .ldDtVx x) → t.dt = s.dt) ∧ ((∀ x, i ≠ .ldStVx x) → t.st = s.st) ∧
    t.keys = s.keys ∧ t.font = s.font ∧ ((∀ x kk, i ≠ .rnd x kk) → t.rndDraws = s.rndDraws)

/-! ## Memory -/

/-- Plain storage: a byte reads as last written, every other byte as before, and inside the 4096 bytes a write keeps
memory's canonical form, so that writing the reset contents back leaves nothing listed (20_memory.md sections 1, 6
and 7). -/
def Obligations.MemoryReadsWhatWasLastWritten : Prop :=
  ∀ (s : State) (a k : Nat) (b : Byte),
    (s.writeByte a b).readByte k = (if k = a then b else s.readByte k) ∧
    (Memory.wf s.font s.mem → a < 4096 → Memory.wf s.font (s.writeByte a b).mem) ∧
    (s.mem = [] → ((s.writeByte a b).writeByte a (s.readByte a)).mem = [])

/-- A store is seen by the very next fetch: a block store of an instruction's two bytes over the next instruction
makes the next Step run it (20_memory.md section 7, fetch coherence; V0 is the high byte). The store and the fetch
may end at byte 0xFFF: D12, D16, 90_conflicts.md C3 (log 6). -/
def Obligations.StoresAreSeenByTheNextFetch : Prop :=
  ∀ (s t : State) (i : Instr), WellFormed i = true → s.run = .running →
    s.pc.toNat % 2 = 0 → s.pc.toNat ≤ 0xFFC → s.I = s.pc + 2 →
    s.reg 0 ++ s.reg 1 = encode i → exec (.ldMemVx 1) s = .next t → step t = exec i t
end

