-- ==== Sys2Proof/Laws/Decode.lean ====
section
/-! SUPPORT. Words and fields as numbers: the fields of a word laid out in the formats of 30_encoding.md rule R52,
and a word from its fields. -/

namespace Sys2Proof

/-! ## Numbers -/

/-- `a ++ b` as a number: `a` in the high bits. -/
theorem append_toNat {n m : Nat} (a : BitVec n) (b : BitVec m) :
    (a ++ b).toNat = a.toNat * 2 ^ m + b.toNat := by
  rw [BitVec.toNat_append, ← Nat.shiftLeft_add_eq_or_of_lt b.isLt, Nat.shiftLeft_eq]

theorem nibbles_toNat (a b c d : Nibble) :
    BitVec.toNat (w := 16) (a ++ b ++ c ++ d) = a.toNat * 4096 + b.toNat * 256 + c.toNat * 16 + d.toNat := by
  have h₁ := append_toNat (a ++ b ++ c) d
  have h₂ := append_toNat (a ++ b) c
  have h₃ := append_toNat a b
  rw [h₂, h₃] at h₁
  exact h₁.trans (by omega)

theorem xkk_toNat (a b : Nibble) (kk : Byte) :
    BitVec.toNat (w := 16) (a ++ b ++ kk) = a.toNat * 4096 + b.toNat * 256 + kk.toNat := by
  have h₁ := append_toNat (a ++ b) kk
  have h₂ := append_toNat a b
  rw [h₂] at h₁
  exact h₁.trans (by omega)

theorem nnn_toNat (a : Nibble) (nnn : Addr) :
    BitVec.toNat (w := 16) (a ++ nnn) = a.toNat * 4096 + nnn.toNat :=
  append_toNat a nnn

theorem opField_toNat (w : Word) : (opField w).toNat = w.toNat / 4096 := by
  have := w.isLt
  simp only [opField, BitVec.extractLsb'_toNat, Nat.shiftRight_eq_div_pow]
  omega

theorem xField_toNat (w : Word) : (xField w).toNat = w.toNat / 256 % 16 := by
  simp only [xField, BitVec.extractLsb'_toNat, Nat.shiftRight_eq_div_pow]

theorem yField_toNat (w : Word) : (yField w).toNat = w.toNat / 16 % 16 := by
  simp only [yField, BitVec.extractLsb'_toNat, Nat.shiftRight_eq_div_pow]

theorem nField_toNat (w : Word) : (nField w).toNat = w.toNat % 16 := by
  simp only [nField, BitVec.extractLsb'_toNat, Nat.shiftRight_eq_div_pow]
  omega

theorem kkOf_toNat (y n : Nibble) : (kkOf y n).toNat = y.toNat * 16 + n.toNat := append_toNat y n

theorem nnnOf_toNat (x y n : Nibble) : (nnnOf x y n).toNat = x.toNat * 256 + y.toNat * 16 + n.toNat := by
  have h₁ := append_toNat (x ++ y) n
  have h₂ := append_toNat x y
  rw [h₂] at h₁
  exact h₁.trans (by omega)

/-! ## The fields of the formats XY, XYN and X -/

@[simp] theorem opField_nibbles (a b c d : Nibble) : opField (a ++ b ++ c ++ d) = a := by
  apply BitVec.eq_of_toNat_eq
  have := d.isLt
  have := c.isLt
  have := b.isLt
  rw [opField_toNat, nibbles_toNat]
  omega

@[simp] theorem xField_nibbles (a b c d : Nibble) : xField (a ++ b ++ c ++ d) = b := by
  apply BitVec.eq_of_toNat_eq
  have := d.isLt
  have := c.isLt
  have := b.isLt
  rw [xField_toNat, nibbles_toNat]
  omega

@[simp] theorem yField_nibbles (a b c d : Nibble) : yField (a ++ b ++ c ++ d) = c := by
  apply BitVec.eq_of_toNat_eq
  have := d.isLt
  have := c.isLt
  rw [yField_toNat, nibbles_toNat]
  omega

@[simp] theorem nField_nibbles (a b c d : Nibble) : nField (a ++ b ++ c ++ d) = d := by
  apply BitVec.eq_of_toNat_eq
  have := d.isLt
  rw [nField_toNat, nibbles_toNat]
  omega

/-- A word is its four nibbles (R51). -/
theorem word_of_fields (w : Word) : opField w ++ xField w ++ yField w ++ nField w = w := by
  apply BitVec.eq_of_toNat_eq
  refine (nibbles_toNat ..).trans ?_
  rw [opField_toNat, xField_toNat, yField_toNat, nField_toNat]
  omega

/-! ## The fields of the formats XKK and NNN -/

@[simp] theorem opField_xkk (a b : Nibble) (kk : Byte) : opField (a ++ b ++ kk) = a := by
  apply BitVec.eq_of_toNat_eq
  have := kk.isLt
  have := b.isLt
  rw [opField_toNat, xkk_toNat]
  omega

@[simp] theorem xField_xkk (a b : Nibble) (kk : Byte) : xField (a ++ b ++ kk) = b := by
  apply BitVec.eq_of_toNat_eq
  have := kk.isLt
  have := b.isLt
  rw [xField_toNat, xkk_toNat]
  omega

/-- `kk` is the low 8 bits (R51). -/
@[simp] theorem kkOf_xkk (a b : Nibble) (kk : Byte) :
    kkOf (yField (a ++ b ++ kk)) (nField (a ++ b ++ kk)) = kk := by
  apply BitVec.eq_of_toNat_eq
  have := kk.isLt
  rw [kkOf_toNat, yField_toNat, nField_toNat, xkk_toNat]
  omega

@[simp] theorem opField_nnn (a : Nibble) (nnn : Addr) : opField (a ++ nnn) = a := by
  apply BitVec.eq_of_toNat_eq
  have := nnn.isLt
  rw [opField_toNat, nnn_toNat]
  omega

/-- `nnn` is the low 12 bits (R51). -/
@[simp] theorem nnnOf_nnn (a : Nibble) (nnn : Addr) :
    nnnOf (xField (a ++ nnn)) (yField (a ++ nnn)) (nField (a ++ nnn)) = nnn := by
  apply BitVec.eq_of_toNat_eq
  have := nnn.isLt
  rw [nnnOf_toNat, xField_toNat, yField_toNat, nField_toNat, nnn_toNat]
  omega

/-! ## Bytes (20_memory.md R34) -/

theorem wordOfBytes_toNat (hi lo : Byte) : (wordOfBytes hi lo).toNat = hi.toNat * 256 + lo.toNat :=
  append_toNat hi lo

theorem highByte_toNat (w : Word) : (highByte w).toNat = w.toNat / 256 := by
  have := w.isLt
  simp only [highByte, BitVec.extractLsb'_toNat, Nat.shiftRight_eq_div_pow]
  omega

theorem lowByte_toNat (w : Word) : (lowByte w).toNat = w.toNat % 256 := by
  simp only [lowByte, BitVec.extractLsb'_toNat, Nat.shiftRight_eq_div_pow]
  omega

/-- The two bytes of a word in memory order make it again. -/
@[simp] theorem wordOfBytes_bytes (w : Word) : wordOfBytes (highByte w) (lowByte w) = w := by
  apply BitVec.eq_of_toNat_eq
  rw [wordOfBytes_toNat, highByte_toNat, lowByte_toNat]
  omega

@[simp] theorem highByte_wordOfBytes (hi lo : Byte) : highByte (wordOfBytes hi lo) = hi := by
  apply BitVec.eq_of_toNat_eq
  have := lo.isLt
  rw [highByte_toNat, wordOfBytes_toNat]
  omega

@[simp] theorem lowByte_wordOfBytes (hi lo : Byte) : lowByte (wordOfBytes hi lo) = lo := by
  apply BitVec.eq_of_toNat_eq
  have := lo.isLt
  rw [lowByte_toNat, wordOfBytes_toNat]
  omega

/-- The word of an opcode-table row of 16 bits is the number itself. -/
theorem tableWord_toNat (w : Word) : tableWord 16 w.toNat = w := by
  apply BitVec.eq_of_toNat_eq
  have := w.isLt
  simp only [tableWord, BitVec.toNat_ofNat]
  omega

end Sys2Proof
end

