-- ==== Sys2Proof/Laws/State.lean ====
section
/-! SUPPORT. One lemma per field per update of State, each true by rfl (or by the update's two cases), so that no
later proof unfolds a record update. -/

namespace Sys2Proof.Machine

/-! ### setReg -/

@[simp] theorem State.setReg_V (s : State) (x : Nibble) (b : Byte) : (s.setReg x b).V = s.V.set x.toNat b := rfl
@[simp] theorem State.setReg_I (s : State) (x : Nibble) (b : Byte) : (s.setReg x b).I = s.I := rfl
@[simp] theorem State.setReg_pc (s : State) (x : Nibble) (b : Byte) : (s.setReg x b).pc = s.pc := rfl
@[simp] theorem State.setReg_sp (s : State) (x : Nibble) (b : Byte) : (s.setReg x b).sp = s.sp := rfl
@[simp] theorem State.setReg_stack (s : State) (x : Nibble) (b : Byte) : (s.setReg x b).stack = s.stack := rfl
@[simp] theorem State.setReg_dt (s : State) (x : Nibble) (b : Byte) : (s.setReg x b).dt = s.dt := rfl
@[simp] theorem State.setReg_st (s : State) (x : Nibble) (b : Byte) : (s.setReg x b).st = s.st := rfl
@[simp] theorem State.setReg_mem (s : State) (x : Nibble) (b : Byte) : (s.setReg x b).mem = s.mem := rfl
@[simp] theorem State.setReg_fb (s : State) (x : Nibble) (b : Byte) : (s.setReg x b).fb = s.fb := rfl
@[simp] theorem State.setReg_keys (s : State) (x : Nibble) (b : Byte) : (s.setReg x b).keys = s.keys := rfl
@[simp] theorem State.setReg_run (s : State) (x : Nibble) (b : Byte) : (s.setReg x b).run = s.run := rfl
@[simp] theorem State.setReg_fault (s : State) (x : Nibble) (b : Byte) : (s.setReg x b).fault = s.fault := rfl
@[simp] theorem State.setReg_font (s : State) (x : Nibble) (b : Byte) : (s.setReg x b).font = s.font := rfl
@[simp] theorem State.setReg_rndDraws (s : State) (x : Nibble) (b : Byte) : (s.setReg x b).rndDraws = s.rndDraws := rfl

/-! ### setFlag -/

@[simp] theorem State.setFlag_V (s : State) (b : Bool) : (s.setFlag b).V = s.V.set 15 (flagByte b) := rfl
@[simp] theorem State.setFlag_I (s : State) (b : Bool) : (s.setFlag b).I = s.I := rfl
@[simp] theorem State.setFlag_pc (s : State) (b : Bool) : (s.setFlag b).pc = s.pc := rfl
@[simp] theorem State.setFlag_sp (s : State) (b : Bool) : (s.setFlag b).sp = s.sp := rfl
@[simp] theorem State.setFlag_stack (s : State) (b : Bool) : (s.setFlag b).stack = s.stack := rfl
@[simp] theorem State.setFlag_dt (s : State) (b : Bool) : (s.setFlag b).dt = s.dt := rfl
@[simp] theorem State.setFlag_st (s : State) (b : Bool) : (s.setFlag b).st = s.st := rfl
@[simp] theorem State.setFlag_mem (s : State) (b : Bool) : (s.setFlag b).mem = s.mem := rfl
@[simp] theorem State.setFlag_fb (s : State) (b : Bool) : (s.setFlag b).fb = s.fb := rfl
@[simp] theorem State.setFlag_keys (s : State) (b : Bool) : (s.setFlag b).keys = s.keys := rfl
@[simp] theorem State.setFlag_run (s : State) (b : Bool) : (s.setFlag b).run = s.run := rfl
@[simp] theorem State.setFlag_fault (s : State) (b : Bool) : (s.setFlag b).fault = s.fault := rfl
@[simp] theorem State.setFlag_font (s : State) (b : Bool) : (s.setFlag b).font = s.font := rfl
@[simp] theorem State.setFlag_rndDraws (s : State) (b : Bool) : (s.setFlag b).rndDraws = s.rndDraws := rfl

/-! ### jumpTo -/

@[simp] theorem State.jumpTo_V (s : State) (t : Word) : (s.jumpTo t).V = s.V := rfl
@[simp] theorem State.jumpTo_I (s : State) (t : Word) : (s.jumpTo t).I = s.I := rfl
@[simp] theorem State.jumpTo_pc (s : State) (t : Word) : (s.jumpTo t).pc = t := rfl
@[simp] theorem State.jumpTo_sp (s : State) (t : Word) : (s.jumpTo t).sp = s.sp := rfl
@[simp] theorem State.jumpTo_stack (s : State) (t : Word) : (s.jumpTo t).stack = s.stack := rfl
@[simp] theorem State.jumpTo_dt (s : State) (t : Word) : (s.jumpTo t).dt = s.dt := rfl
@[simp] theorem State.jumpTo_st (s : State) (t : Word) : (s.jumpTo t).st = s.st := rfl
@[simp] theorem State.jumpTo_mem (s : State) (t : Word) : (s.jumpTo t).mem = s.mem := rfl
@[simp] theorem State.jumpTo_fb (s : State) (t : Word) : (s.jumpTo t).fb = s.fb := rfl
@[simp] theorem State.jumpTo_keys (s : State) (t : Word) : (s.jumpTo t).keys = s.keys := rfl
@[simp] theorem State.jumpTo_run (s : State) (t : Word) : (s.jumpTo t).run = s.run := rfl
@[simp] theorem State.jumpTo_fault (s : State) (t : Word) : (s.jumpTo t).fault = s.fault := rfl
@[simp] theorem State.jumpTo_font (s : State) (t : Word) : (s.jumpTo t).font = s.font := rfl
@[simp] theorem State.jumpTo_rndDraws (s : State) (t : Word) : (s.jumpTo t).rndDraws = s.rndDraws := rfl

/-! ### advance -/

@[simp] theorem State.advance_V (s : State) : s.advance.V = s.V := rfl
@[simp] theorem State.advance_I (s : State) : s.advance.I = s.I := rfl
@[simp] theorem State.advance_pc (s : State) : s.advance.pc = s.pc + 2 := rfl
@[simp] theorem State.advance_sp (s : State) : s.advance.sp = s.sp := rfl
@[simp] theorem State.advance_stack (s : State) : s.advance.stack = s.stack := rfl
@[simp] theorem State.advance_dt (s : State) : s.advance.dt = s.dt := rfl
@[simp] theorem State.advance_st (s : State) : s.advance.st = s.st := rfl
@[simp] theorem State.advance_mem (s : State) : s.advance.mem = s.mem := rfl
@[simp] theorem State.advance_fb (s : State) : s.advance.fb = s.fb := rfl
@[simp] theorem State.advance_keys (s : State) : s.advance.keys = s.keys := rfl
@[simp] theorem State.advance_run (s : State) : s.advance.run = s.run := rfl
@[simp] theorem State.advance_fault (s : State) : s.advance.fault = s.fault := rfl
@[simp] theorem State.advance_font (s : State) : s.advance.font = s.font := rfl
@[simp] theorem State.advance_rndDraws (s : State) : s.advance.rndDraws = s.rndDraws := rfl

/-! ### skipIf -/

@[simp] theorem State.skipIf_V (s : State) (c : Bool) : (s.skipIf c).V = s.V := by cases c <;> rfl
@[simp] theorem State.skipIf_I (s : State) (c : Bool) : (s.skipIf c).I = s.I := by cases c <;> rfl
@[simp] theorem State.skipIf_pc (s : State) (c : Bool) : (s.skipIf c).pc = if c then s.pc + 4 else s.pc + 2 := by cases c <;> rfl
@[simp] theorem State.skipIf_sp (s : State) (c : Bool) : (s.skipIf c).sp = s.sp := by cases c <;> rfl
@[simp] theorem State.skipIf_stack (s : State) (c : Bool) : (s.skipIf c).stack = s.stack := by cases c <;> rfl
@[simp] theorem State.skipIf_dt (s : State) (c : Bool) : (s.skipIf c).dt = s.dt := by cases c <;> rfl
@[simp] theorem State.skipIf_st (s : State) (c : Bool) : (s.skipIf c).st = s.st := by cases c <;> rfl
@[simp] theorem State.skipIf_mem (s : State) (c : Bool) : (s.skipIf c).mem = s.mem := by cases c <;> rfl
@[simp] theorem State.skipIf_fb (s : State) (c : Bool) : (s.skipIf c).fb = s.fb := by cases c <;> rfl
@[simp] theorem State.skipIf_keys (s : State) (c : Bool) : (s.skipIf c).keys = s.keys := by cases c <;> rfl
@[simp] theorem State.skipIf_run (s : State) (c : Bool) : (s.skipIf c).run = s.run := by cases c <;> rfl
@[simp] theorem State.skipIf_fault (s : State) (c : Bool) : (s.skipIf c).fault = s.fault := by cases c <;> rfl
@[simp] theorem State.skipIf_font (s : State) (c : Bool) : (s.skipIf c).font = s.font := by cases c <;> rfl
@[simp] theorem State.skipIf_rndDraws (s : State) (c : Bool) : (s.skipIf c).rndDraws = s.rndDraws := by cases c <;> rfl

/-! ### writeResultAndFlag -/

@[simp] theorem State.writeResultAndFlag_V (s : State) (x : Nibble) (r : Byte) (b : Bool) : (s.writeResultAndFlag x r b).V = (s.V.set x.toNat r).set 15 (flagByte b) := rfl
@[simp] theorem State.writeResultAndFlag_I (s : State) (x : Nibble) (r : Byte) (b : Bool) : (s.writeResultAndFlag x r b).I = s.I := rfl
@[simp] theorem State.writeResultAndFlag_pc (s : State) (x : Nibble) (r : Byte) (b : Bool) : (s.writeResultAndFlag x r b).pc = s.pc + 2 := rfl
@[simp] theorem State.writeResultAndFlag_sp (s : State) (x : Nibble) (r : Byte) (b : Bool) : (s.writeResultAndFlag x r b).sp = s.sp := rfl
@[simp] theorem State.writeResultAndFlag_stack (s : State) (x : Nibble) (r : Byte) (b : Bool) : (s.writeResultAndFlag x r b).stack = s.stack := rfl
@[simp] theorem State.writeResultAndFlag_dt (s : State) (x : Nibble) (r : Byte) (b : Bool) : (s.writeResultAndFlag x r b).dt = s.dt := rfl
@[simp] theorem State.writeResultAndFlag_st (s : State) (x : Nibble) (r : Byte) (b : Bool) : (s.writeResultAndFlag x r b).st = s.st := rfl
@[simp] theorem State.writeResultAndFlag_mem (s : State) (x : Nibble) (r : Byte) (b : Bool) : (s.writeResultAndFlag x r b).mem = s.mem := rfl
@[simp] theorem State.writeResultAndFlag_fb (s : State) (x : Nibble) (r : Byte) (b : Bool) : (s.writeResultAndFlag x r b).fb = s.fb := rfl
@[simp] theorem State.writeResultAndFlag_keys (s : State) (x : Nibble) (r : Byte) (b : Bool) : (s.writeResultAndFlag x r b).keys = s.keys := rfl
@[simp] theorem State.writeResultAndFlag_run (s : State) (x : Nibble) (r : Byte) (b : Bool) : (s.writeResultAndFlag x r b).run = s.run := rfl
@[simp] theorem State.writeResultAndFlag_fault (s : State) (x : Nibble) (r : Byte) (b : Bool) : (s.writeResultAndFlag x r b).fault = s.fault := rfl
@[simp] theorem State.writeResultAndFlag_font (s : State) (x : Nibble) (r : Byte) (b : Bool) : (s.writeResultAndFlag x r b).font = s.font := rfl
@[simp] theorem State.writeResultAndFlag_rndDraws (s : State) (x : Nibble) (r : Byte) (b : Bool) : (s.writeResultAndFlag x r b).rndDraws = s.rndDraws := rfl

/-! ### raise -/

@[simp] theorem State.raise_V (s : State) (f : Fault) (o : Option Word) : (s.raise f o).V = s.V := rfl
@[simp] theorem State.raise_I (s : State) (f : Fault) (o : Option Word) : (s.raise f o).I = s.I := rfl
@[simp] theorem State.raise_pc (s : State) (f : Fault) (o : Option Word) : (s.raise f o).pc = s.pc := rfl
@[simp] theorem State.raise_sp (s : State) (f : Fault) (o : Option Word) : (s.raise f o).sp = s.sp := rfl
@[simp] theorem State.raise_stack (s : State) (f : Fault) (o : Option Word) : (s.raise f o).stack = s.stack := rfl
@[simp] theorem State.raise_dt (s : State) (f : Fault) (o : Option Word) : (s.raise f o).dt = s.dt := rfl
@[simp] theorem State.raise_st (s : State) (f : Fault) (o : Option Word) : (s.raise f o).st = s.st := rfl
@[simp] theorem State.raise_mem (s : State) (f : Fault) (o : Option Word) : (s.raise f o).mem = s.mem := rfl
@[simp] theorem State.raise_fb (s : State) (f : Fault) (o : Option Word) : (s.raise f o).fb = s.fb := rfl
@[simp] theorem State.raise_keys (s : State) (f : Fault) (o : Option Word) : (s.raise f o).keys = s.keys := rfl
@[simp] theorem State.raise_run (s : State) (f : Fault) (o : Option Word) : (s.raise f o).run = .faulted := rfl
@[simp] theorem State.raise_fault (s : State) (f : Fault) (o : Option Word) : (s.raise f o).fault = some ⟨f, s.pc, o⟩ := rfl
@[simp] theorem State.raise_font (s : State) (f : Fault) (o : Option Word) : (s.raise f o).font = s.font := rfl
@[simp] theorem State.raise_rndDraws (s : State) (f : Fault) (o : Option Word) : (s.raise f o).rndDraws = s.rndDraws := rfl

/-! ### writeByte -/

@[simp] theorem State.writeByte_V (s : State) (a : Nat) (b : Byte) : (s.writeByte a b).V = s.V := rfl
@[simp] theorem State.writeByte_I (s : State) (a : Nat) (b : Byte) : (s.writeByte a b).I = s.I := rfl
@[simp] theorem State.writeByte_pc (s : State) (a : Nat) (b : Byte) : (s.writeByte a b).pc = s.pc := rfl
@[simp] theorem State.writeByte_sp (s : State) (a : Nat) (b : Byte) : (s.writeByte a b).sp = s.sp := rfl
@[simp] theorem State.writeByte_stack (s : State) (a : Nat) (b : Byte) : (s.writeByte a b).stack = s.stack := rfl
@[simp] theorem State.writeByte_dt (s : State) (a : Nat) (b : Byte) : (s.writeByte a b).dt = s.dt := rfl
@[simp] theorem State.writeByte_st (s : State) (a : Nat) (b : Byte) : (s.writeByte a b).st = s.st := rfl
@[simp] theorem State.writeByte_mem (s : State) (a : Nat) (b : Byte) : (s.writeByte a b).mem = if b = Memory.unlisted s.font a then Memory.erase s.mem a else Memory.insert s.mem a b := rfl
@[simp] theorem State.writeByte_fb (s : State) (a : Nat) (b : Byte) : (s.writeByte a b).fb = s.fb := rfl
@[simp] theorem State.writeByte_keys (s : State) (a : Nat) (b : Byte) : (s.writeByte a b).keys = s.keys := rfl
@[simp] theorem State.writeByte_run (s : State) (a : Nat) (b : Byte) : (s.writeByte a b).run = s.run := rfl
@[simp] theorem State.writeByte_fault (s : State) (a : Nat) (b : Byte) : (s.writeByte a b).fault = s.fault := rfl
@[simp] theorem State.writeByte_font (s : State) (a : Nat) (b : Byte) : (s.writeByte a b).font = s.font := rfl
@[simp] theorem State.writeByte_rndDraws (s : State) (a : Nat) (b : Byte) : (s.writeByte a b).rndDraws = s.rndDraws := rfl

/-! ### draw_snd -/

@[simp] theorem State.draw_snd_V (s : State) : s.draw.2.V = s.V := rfl
@[simp] theorem State.draw_snd_I (s : State) : s.draw.2.I = s.I := rfl
@[simp] theorem State.draw_snd_pc (s : State) : s.draw.2.pc = s.pc := rfl
@[simp] theorem State.draw_snd_sp (s : State) : s.draw.2.sp = s.sp := rfl
@[simp] theorem State.draw_snd_stack (s : State) : s.draw.2.stack = s.stack := rfl
@[simp] theorem State.draw_snd_dt (s : State) : s.draw.2.dt = s.dt := rfl
@[simp] theorem State.draw_snd_st (s : State) : s.draw.2.st = s.st := rfl
@[simp] theorem State.draw_snd_mem (s : State) : s.draw.2.mem = s.mem := rfl
@[simp] theorem State.draw_snd_fb (s : State) : s.draw.2.fb = s.fb := rfl
@[simp] theorem State.draw_snd_keys (s : State) : s.draw.2.keys = s.keys := rfl
@[simp] theorem State.draw_snd_run (s : State) : s.draw.2.run = s.run := rfl
@[simp] theorem State.draw_snd_fault (s : State) : s.draw.2.fault = s.fault := rfl
@[simp] theorem State.draw_snd_font (s : State) : s.draw.2.font = s.font := rfl
@[simp] theorem State.draw_snd_rndDraws (s : State) : s.draw.2.rndDraws = s.rndDraws + 1 := rfl

/-! ### resetEvent -/

@[simp] theorem State.resetEvent_V (s : State) : s.resetEvent.V = Vector.replicate 16 0 := rfl
@[simp] theorem State.resetEvent_I (s : State) : s.resetEvent.I = 0 := rfl
@[simp] theorem State.resetEvent_pc (s : State) : s.resetEvent.pc = 0x200 := rfl
@[simp] theorem State.resetEvent_sp (s : State) : s.resetEvent.sp = 0 := rfl
@[simp] theorem State.resetEvent_stack (s : State) : s.resetEvent.stack = Vector.replicate 16 0 := rfl
@[simp] theorem State.resetEvent_dt (s : State) : s.resetEvent.dt = 0 := rfl
@[simp] theorem State.resetEvent_st (s : State) : s.resetEvent.st = 0 := rfl
@[simp] theorem State.resetEvent_mem (s : State) : s.resetEvent.mem = [] := rfl
@[simp] theorem State.resetEvent_fb (s : State) : s.resetEvent.fb = blankFramebuffer := rfl
@[simp] theorem State.resetEvent_keys (s : State) : s.resetEvent.keys = 0 := rfl
@[simp] theorem State.resetEvent_run (s : State) : s.resetEvent.run = .running := rfl
@[simp] theorem State.resetEvent_fault (s : State) : s.resetEvent.fault = none := rfl
@[simp] theorem State.resetEvent_font (s : State) : s.resetEvent.font = s.font := rfl
@[simp] theorem State.resetEvent_rndDraws (s : State) : s.resetEvent.rndDraws = s.rndDraws := rfl

@[simp] theorem State.draw_fst (s : State) : s.draw.1 = Config.rnd s.rndDraws := rfl

/-! ### Updates of many bytes and many registers -/

@[simp] theorem State.writeBytes_V (s : State) (a : Nat) (bs : List Byte) : (s.writeBytes a bs).V = s.V := by
  induction bs generalizing s a with
  | nil => rfl
  | cons b bs ih => simp [State.writeBytes, ih]
@[simp] theorem State.writeBytes_I (s : State) (a : Nat) (bs : List Byte) : (s.writeBytes a bs).I = s.I := by
  induction bs generalizing s a with
  | nil => rfl
  | cons b bs ih => simp [State.writeBytes, ih]
@[simp] theorem State.writeBytes_pc (s : State) (a : Nat) (bs : List Byte) : (s.writeBytes a bs).pc = s.pc := by
  induction bs generalizing s a with
  | nil => rfl
  | cons b bs ih => simp [State.writeBytes, ih]
@[simp] theorem State.writeBytes_sp (s : State) (a : Nat) (bs : List Byte) : (s.writeBytes a bs).sp = s.sp := by
  induction bs generalizing s a with
  | nil => rfl
  | cons b bs ih => simp [State.writeBytes, ih]
@[simp] theorem State.writeBytes_stack (s : State) (a : Nat) (bs : List Byte) : (s.writeBytes a bs).stack = s.stack := by
  induction bs generalizing s a with
  | nil => rfl
  | cons b bs ih => simp [State.writeBytes, ih]
@[simp] theorem State.writeBytes_dt (s : State) (a : Nat) (bs : List Byte) : (s.writeBytes a bs).dt = s.dt := by
  induction bs generalizing s a with
  | nil => rfl
  | cons b bs ih => simp [State.writeBytes, ih]
@[simp] theorem State.writeBytes_st (s : State) (a : Nat) (bs : List Byte) : (s.writeBytes a bs).st = s.st := by
  induction bs generalizing s a with
  | nil => rfl
  | cons b bs ih => simp [State.writeBytes, ih]
@[simp] theorem State.writeBytes_fb (s : State) (a : Nat) (bs : List Byte) : (s.writeBytes a bs).fb = s.fb := by
  induction bs generalizing s a with
  | nil => rfl
  | cons b bs ih => simp [State.writeBytes, ih]
@[simp] theorem State.writeBytes_keys (s : State) (a : Nat) (bs : List Byte) : (s.writeBytes a bs).keys = s.keys := by
  induction bs generalizing s a with
  | nil => rfl
  | cons b bs ih => simp [State.writeBytes, ih]
@[simp] theorem State.writeBytes_run (s : State) (a : Nat) (bs : List Byte) : (s.writeBytes a bs).run = s.run := by
  induction bs generalizing s a with
  | nil => rfl
  | cons b bs ih => simp [State.writeBytes, ih]
@[simp] theorem State.writeBytes_fault (s : State) (a : Nat) (bs : List Byte) : (s.writeBytes a bs).fault = s.fault := by
  induction bs generalizing s a with
  | nil => rfl
  | cons b bs ih => simp [State.writeBytes, ih]
@[simp] theorem State.writeBytes_font (s : State) (a : Nat) (bs : List Byte) : (s.writeBytes a bs).font = s.font := by
  induction bs generalizing s a with
  | nil => rfl
  | cons b bs ih => simp [State.writeBytes, ih]
@[simp] theorem State.writeBytes_rndDraws (s : State) (a : Nat) (bs : List Byte) : (s.writeBytes a bs).rndDraws = s.rndDraws := by
  induction bs generalizing s a with
  | nil => rfl
  | cons b bs ih => simp [State.writeBytes, ih]

@[simp] theorem State.setRegsFrom_I (s : State) (x : Nat) (bs : List Byte) : (s.setRegsFrom x bs).I = s.I := by
  induction bs generalizing s x with
  | nil => rfl
  | cons b bs ih => simp [State.setRegsFrom, ih]
@[simp] theorem State.setRegsFrom_pc (s : State) (x : Nat) (bs : List Byte) : (s.setRegsFrom x bs).pc = s.pc := by
  induction bs generalizing s x with
  | nil => rfl
  | cons b bs ih => simp [State.setRegsFrom, ih]
@[simp] theorem State.setRegsFrom_sp (s : State) (x : Nat) (bs : List Byte) : (s.setRegsFrom x bs).sp = s.sp := by
  induction bs generalizing s x with
  | nil => rfl
  | cons b bs ih => simp [State.setRegsFrom, ih]
@[simp] theorem State.setRegsFrom_stack (s : State) (x : Nat) (bs : List Byte) : (s.setRegsFrom x bs).stack = s.stack := by
  induction bs generalizing s x with
  | nil => rfl
  | cons b bs ih => simp [State.setRegsFrom, ih]
@[simp] theorem State.setRegsFrom_dt (s : State) (x : Nat) (bs : List Byte) : (s.setRegsFrom x bs).dt = s.dt := by
  induction bs generalizing s x with
  | nil => rfl
  | cons b bs ih => simp [State.setRegsFrom, ih]
@[simp] theorem State.setRegsFrom_st (s : State) (x : Nat) (bs : List Byte) : (s.setRegsFrom x bs).st = s.st := by
  induction bs generalizing s x with
  | nil => rfl
  | cons b bs ih => simp [State.setRegsFrom, ih]
@[simp] theorem State.setRegsFrom_mem (s : State) (x : Nat) (bs : List Byte) : (s.setRegsFrom x bs).mem = s.mem := by
  induction bs generalizing s x with
  | nil => rfl
  | cons b bs ih => simp [State.setRegsFrom, ih]
@[simp] theorem State.setRegsFrom_fb (s : State) (x : Nat) (bs : List Byte) : (s.setRegsFrom x bs).fb = s.fb := by
  induction bs generalizing s x with
  | nil => rfl
  | cons b bs ih => simp [State.setRegsFrom, ih]
@[simp] theorem State.setRegsFrom_keys (s : State) (x : Nat) (bs : List Byte) : (s.setRegsFrom x bs).keys = s.keys := by
  induction bs generalizing s x with
  | nil => rfl
  | cons b bs ih => simp [State.setRegsFrom, ih]
@[simp] theorem State.setRegsFrom_run (s : State) (x : Nat) (bs : List Byte) : (s.setRegsFrom x bs).run = s.run := by
  induction bs generalizing s x with
  | nil => rfl
  | cons b bs ih => simp [State.setRegsFrom, ih]
@[simp] theorem State.setRegsFrom_fault (s : State) (x : Nat) (bs : List Byte) : (s.setRegsFrom x bs).fault = s.fault := by
  induction bs generalizing s x with
  | nil => rfl
  | cons b bs ih => simp [State.setRegsFrom, ih]
@[simp] theorem State.setRegsFrom_font (s : State) (x : Nat) (bs : List Byte) : (s.setRegsFrom x bs).font = s.font := by
  induction bs generalizing s x with
  | nil => rfl
  | cons b bs ih => simp [State.setRegsFrom, ih]
@[simp] theorem State.setRegsFrom_rndDraws (s : State) (x : Nat) (bs : List Byte) : (s.setRegsFrom x bs).rndDraws = s.rndDraws := by
  induction bs generalizing s x with
  | nil => rfl
  | cons b bs ih => simp [State.setRegsFrom, ih]

/-! ### Reads through an update -/

@[simp] theorem State.setReg_readByte (s : State) (x : Nibble) (b : Byte) (k : Nat) : (s.setReg x b).readByte k = s.readByte k := rfl
@[simp] theorem State.setFlag_readByte (s : State) (b : Bool) (k : Nat) : (s.setFlag b).readByte k = s.readByte k := rfl
@[simp] theorem State.jumpTo_readByte (s : State) (t : Word) (k : Nat) : (s.jumpTo t).readByte k = s.readByte k := rfl
@[simp] theorem State.advance_readByte (s : State) (k : Nat) : s.advance.readByte k = s.readByte k := rfl
@[simp] theorem State.raise_readByte (s : State) (f : Fault) (o : Option Word) (k : Nat) : (s.raise f o).readByte k = s.readByte k := rfl
@[simp] theorem State.draw_snd_readByte (s : State) (k : Nat) : s.draw.2.readByte k = s.readByte k := rfl
@[simp] theorem State.writeResultAndFlag_readByte (s : State) (x : Nibble) (r : Byte) (b : Bool) (k : Nat) : (s.writeResultAndFlag x r b).readByte k = s.readByte k := rfl
@[simp] theorem State.skipIf_readByte (s : State) (c : Bool) (k : Nat) : (s.skipIf c).readByte k = s.readByte k := by
  cases c <;> rfl
@[simp] theorem State.jumpTo_reg (s : State) (t : Word) (x : Nibble) : (s.jumpTo t).reg x = s.reg x := rfl
@[simp] theorem State.advance_reg (s : State) (x : Nibble) : s.advance.reg x = s.reg x := rfl
@[simp] theorem State.raise_reg (s : State) (f : Fault) (o : Option Word) (x : Nibble) : (s.raise f o).reg x = s.reg x := rfl
@[simp] theorem State.draw_snd_reg (s : State) (x : Nibble) : s.draw.2.reg x = s.reg x := rfl
@[simp] theorem State.writeByte_reg (s : State) (a : Nat) (b : Byte) (x : Nibble) : (s.writeByte a b).reg x = s.reg x := rfl
@[simp] theorem State.skipIf_reg (s : State) (c : Bool) (x : Nibble) : (s.skipIf c).reg x = s.reg x := by
  cases c <;> rfl
@[simp] theorem State.writeBytes_reg (s : State) (a : Nat) (bs : List Byte) (x : Nibble) :
    (s.writeBytes a bs).reg x = s.reg x := by
  simp [State.reg]

/-- A register reads what was last written to it, and every other register is untouched (10_state.md R10). -/
theorem State.setReg_reg (s : State) (x y : Nibble) (b : Byte) :
    (s.setReg x b).reg y = if y = x then b else s.reg y := by
  simp only [State.reg, State.setReg_V, Vector.getElem_set, BitVec.toNat_inj, eq_comm]

@[simp] theorem State.setReg_reg_self (s : State) (x : Nibble) (b : Byte) : (s.setReg x b).reg x = b := by
  simp [State.setReg_reg]

/-- The flag register after a flag write, and every other register untouched (10_state.md R11). -/
theorem State.setFlag_reg (s : State) (f : Bool) (y : Nibble) :
    (s.setFlag f).reg y = if y = 0xF then flagByte f else s.reg y := State.setReg_reg ..

/-- What `writeResultAndFlag` leaves in the registers: the flag wins in VF (41_load_alu.md R80). -/
theorem State.writeResultAndFlag_reg (s : State) (x y : Nibble) (r : Byte) (f : Bool) :
    (s.writeResultAndFlag x r f).reg y = if y = 0xF then flagByte f else if y = x then r else s.reg y := by
  simp only [State.writeResultAndFlag, State.advance_reg, State.setFlag_reg, State.setReg_reg]

end Sys2Proof.Machine
end

