-- ==== Sys2Proof/Laws/Memory.lean ====
section
/-! SUPPORT. Memory: a read after a write, and the canonical form every memory operation keeps. -/

namespace Sys2Proof.Machine

/-! ## The cell list -/

theorem Memory.find_insert (m : List Host.Cell) (a k : Nat) (b : Byte) :
    Memory.find (Memory.insert m a b) k = if a = k then some b else Memory.find m k := by
  induction m with
  | nil => simp [Memory.insert, Memory.find]
  | cons c m ih =>
    obtain ⟨a', b'⟩ := c
    simp only [Memory.insert]
    split
    · simp [Memory.find]
    · split
      · next h => subst h; simp only [Memory.find]; split <;> rfl
      · next h =>
        simp only [Memory.find, ih]
        by_cases e : a = k
        · subst e; simp [h]
        · simp [e]

theorem Memory.find_erase (m : List Host.Cell) (a k : Nat) :
    Memory.find (Memory.erase m a) k = if a = k then none else Memory.find m k := by
  induction m with
  | nil => simp [Memory.erase, Memory.find]
  | cons c m ih =>
    obtain ⟨a', b'⟩ := c
    simp only [Memory.erase]
    split
    · next h =>
      subst h
      simp only [Memory.find, ih]
      split <;> simp_all
    · next h =>
      simp only [Memory.find, ih]
      by_cases e : a = k
      · subst e; simp [h]
      · simp [e]

theorem Memory.mem_insert {m : List Host.Cell} {a : Nat} {b : Byte} {c : Host.Cell} :
    c ∈ Memory.insert m a b → c = (a, b) ∨ c ∈ m := by
  induction m with
  | nil => simp [Memory.insert]
  | cons d m ih =>
    obtain ⟨a', b'⟩ := d
    simp only [Memory.insert]
    split
    · simp
    · split
      · intro h; rcases List.mem_cons.mp h with h | h <;> simp [h]
      · intro h
        rcases List.mem_cons.mp h with h | h
        · simp [h]
        · rcases ih h with h | h <;> simp [h]

theorem Memory.mem_of_mem_erase {m : List Host.Cell} {a : Nat} {c : Host.Cell} :
    c ∈ Memory.erase m a → c ∈ m := by
  induction m with
  | nil => simp [Memory.erase]
  | cons d m ih =>
    obtain ⟨a', b'⟩ := d
    simp only [Memory.erase]
    split
    · intro h; simp [ih h]
    · intro h
      rcases List.mem_cons.mp h with h | h
      · simp [h]
      · simp [ih h]

theorem Memory.insert_sorted {m : List Host.Cell} (h : m.Pairwise (fun c d => c.1 < d.1)) (a : Nat) (b : Byte) :
    (Memory.insert m a b).Pairwise (fun c d => c.1 < d.1) := by
  induction m with
  | nil => simp [Memory.insert]
  | cons c m ih =>
    obtain ⟨a', b'⟩ := c
    obtain ⟨hc, hm⟩ := List.pairwise_cons.mp h
    simp only [Memory.insert]
    split
    · next e =>
      refine List.pairwise_cons.mpr ⟨fun d hd => ?_, h⟩
      rcases List.mem_cons.mp hd with hd | hd
      · subst hd; exact e
      · exact Nat.lt_trans e (hc d hd)
    · split
      · next e => subst e; exact List.pairwise_cons.mpr ⟨hc, hm⟩
      · next e₁ e₂ =>
        refine List.pairwise_cons.mpr ⟨fun d hd => ?_, ih hm⟩
        rcases Memory.mem_insert hd with hd | hd
        · subst hd; simp only; omega
        · exact hc d hd

theorem Memory.erase_sorted {m : List Host.Cell} (h : m.Pairwise (fun c d => c.1 < d.1)) (a : Nat) :
    (Memory.erase m a).Pairwise (fun c d => c.1 < d.1) := by
  induction m with
  | nil => simp [Memory.erase]
  | cons c m ih =>
    obtain ⟨a', b'⟩ := c
    obtain ⟨hc, hm⟩ := List.pairwise_cons.mp h
    simp only [Memory.erase]
    split
    · exact ih hm
    · exact List.pairwise_cons.mpr ⟨fun d hd => hc d (Memory.mem_of_mem_erase hd), ih hm⟩

/-- Reset memory lists nothing, and that is canonical. -/
theorem Memory.wf_nil (font : Font) : Memory.wf font [] := by simp [Memory.wf]

/-! ## Byte reads and writes -/

/-- A write of one byte inside memory keeps the canonical form. -/
theorem State.writeByte_wf {s : State} (h : Memory.wf s.font s.mem) {a : Nat} (ha : a < 4096) (b : Byte) :
    Memory.wf (s.writeByte a b).font (s.writeByte a b).mem := by
  obtain ⟨hs, hc⟩ := h
  simp only [State.writeByte_mem, State.writeByte_font]
  split
  · exact ⟨Memory.erase_sorted hs a, fun c hm => hc c (Memory.mem_of_mem_erase hm)⟩
  · next hb =>
    refine ⟨Memory.insert_sorted hs a b, fun c hm => ?_⟩
    rcases Memory.mem_insert hm with e | e
    · subst e; exact ⟨ha, hb⟩
    · exact hc c e

/-- A read after a write of one byte: the byte written at its address, every other byte untouched. -/
theorem State.writeByte_readByte (s : State) (a k : Nat) (b : Byte) :
    (s.writeByte a b).readByte k = if k = a then b else s.readByte k := by
  simp only [State.readByte, State.writeByte_mem, State.writeByte_font]
  by_cases e : b = Memory.unlisted s.font a
  · rw [if_pos e, Memory.find_erase]
    by_cases ek : a = k
    · subst ek; simp [e]
    · rw [if_neg ek, if_neg (Ne.symm ek)]
  · rw [if_neg e, Memory.find_insert]
    by_cases ek : a = k
    · subst ek; simp
    · rw [if_neg ek, if_neg (Ne.symm ek)]

/-- Writing bytes inside memory keeps the canonical form. -/
theorem State.writeBytes_wf {s : State} (h : Memory.wf s.font s.mem) {a : Nat} {bs : List Byte}
    (ha : a + bs.length ≤ 4096) : Memory.wf (s.writeBytes a bs).font (s.writeBytes a bs).mem := by
  induction bs generalizing s a with
  | nil => exact h
  | cons b bs ih =>
    simp only [List.length_cons] at ha
    exact ih (State.writeByte_wf h (by omega) b) (by omega)

/-- A read after a write of bytes: the byte written where one was, every other byte untouched. -/
theorem State.writeBytes_readByte (s : State) (a : Nat) (bs : List Byte) (k : Nat) :
    (s.writeBytes a bs).readByte k =
      if hk : a ≤ k ∧ k < a + bs.length then bs[k - a]'(by omega) else s.readByte k := by
  induction bs generalizing s a with
  | nil =>
    have h : ¬ (a ≤ k ∧ k < a + ([] : List Byte).length) := by simp only [List.length_nil]; omega
    rw [dif_neg h]
    rfl
  | cons b bs ih =>
    simp only [State.writeBytes]
    rw [ih, State.writeByte_readByte]
    simp only [List.length_cons]
    by_cases e : k = a
    · subst e
      have h1 : ¬ (k + 1 ≤ k ∧ k < k + 1 + bs.length) := by omega
      have h2 : k ≤ k ∧ k < k + (bs.length + 1) := by omega
      rw [dif_neg h1, dif_pos h2, if_pos rfl]
      simp
    · by_cases e' : a + 1 ≤ k ∧ k < a + 1 + bs.length
      · have h2 : a ≤ k ∧ k < a + (bs.length + 1) := by omega
        rw [dif_pos e', dif_pos h2]
        have h3 : k - a = (k - (a + 1)) + 1 := by omega
        simp only [h3, List.getElem_cons_succ]
      · have h2 : ¬ (a ≤ k ∧ k < a + (bs.length + 1)) := by omega
        rw [dif_neg e', dif_neg h2, if_neg e]

/-- What a read of `n` bytes returns: `n` of them, byte `k` from `a + k`. -/
@[simp] theorem State.readBytes_length (s : State) (a n : Nat) : (s.readBytes a n).length = n := by
  induction n generalizing a with
  | zero => rfl
  | succ n ih => simp [State.readBytes, ih]

theorem State.readBytes_getElem (s : State) (a n k : Nat) (h : k < (s.readBytes a n).length) :
    (s.readBytes a n)[k] = s.readByte (a + k) := by
  induction n generalizing a k with
  | zero => simp at h
  | succ n ih =>
    cases k with
    | zero => rfl
    | succ k =>
      simp only [State.readBytes, List.getElem_cons_succ]
      rw [ih]
      congr 1
      omega

/-- An access is in range iff it touches nothing or its last byte is at most 0xFFF (20_memory.md R32). -/
theorem accessInRange_iff (a n : Nat) : accessInRange a n = true ↔ (n = 0 ∨ a + n ≤ 4096) := by
  simp only [accessInRange, Bool.or_eq_true, beq_iff_eq, decide_eq_true_eq]
  omega

/-- All that `memRead` can do: the bytes, or MemOutOfRange exactly when out of range. -/
theorem State.memRead_eq (s : State) (a n : Nat) :
    s.memRead a n = if n = 0 ∨ a + n ≤ 4096 then some (s.readBytes a n) else none := by
  unfold State.memRead
  by_cases h : n = 0 ∨ a + n ≤ 4096
  · rw [if_pos ((accessInRange_iff a n).mpr h), if_pos h]
  · rw [if_neg (fun e => h ((accessInRange_iff a n).mp e)), if_neg h]

/-- All that `memWrite` can do: the bytes written, or MemOutOfRange exactly when out of range. -/
theorem State.memWrite_eq (s : State) (a : Nat) (bs : List Byte) :
    s.memWrite a bs = if bs.length = 0 ∨ a + bs.length ≤ 4096 then some (s.writeBytes a bs) else none := by
  unfold State.memWrite
  by_cases h : bs.length = 0 ∨ a + bs.length ≤ 4096
  · rw [if_pos ((accessInRange_iff a _).mpr h), if_pos h]
  · rw [if_neg (fun e => h ((accessInRange_iff a _).mp e)), if_neg h]

theorem State.memRead_some (s : State) {a n : Nat} (h : n = 0 ∨ a + n ≤ 4096) :
    s.memRead a n = some (s.readBytes a n) := by rw [State.memRead_eq, if_pos h]

theorem State.memRead_none (s : State) {a n : Nat} (h₀ : 0 < n) (h : 4096 < a + n) : s.memRead a n = none := by
  rw [State.memRead_eq, if_neg (by omega)]

theorem State.memWrite_some (s : State) {a : Nat} {bs : List Byte} (h : a + bs.length ≤ 4096) :
    s.memWrite a bs = some (s.writeBytes a bs) := by rw [State.memWrite_eq, if_pos (.inr h)]

theorem State.memWrite_none (s : State) {a : Nat} {bs : List Byte} (h₀ : 0 < bs.length)
    (h : 4096 < a + bs.length) : s.memWrite a bs = none := by
  rw [State.memWrite_eq, if_neg (by omega)]

/-- `memWrite` keeps the canonical form. -/
theorem State.memWrite_wf {s t : State} (h : Memory.wf s.font s.mem) {a : Nat} {bs : List Byte}
    (e : s.memWrite a bs = some t) : Memory.wf t.font t.mem := by
  rw [State.memWrite_eq] at e
  split at e
  · next hr =>
    cases e
    rcases hr with hr | hr
    · rw [List.length_eq_zero_iff.mp hr]; exact h
    · exact State.writeBytes_wf h hr
  · cases e

end Sys2Proof.Machine
end

