-- ==== Sys2Proof/Laws/Ops.lean ====
section
/-! SUPPORT. What each shared operation does, once: the register block, the call stack, the fetch, the raster
engine, the input latch. The provers cite these instead of unfolding the operations. -/

namespace Sys2Proof.Machine

/-! ## The register block (42_index_memory.md R103, R104) -/

@[simp] theorem State.regsFrom_length (s : State) (i n : Nat) : (s.regsFrom i n).length = n := by
  induction n generalizing i with
  | zero => rfl
  | succ n ih => simp [State.regsFrom, ih]

theorem State.regsFrom_getElem (s : State) (i n k : Nat) (h : k < (s.regsFrom i n).length) :
    (s.regsFrom i n)[k] = s.reg (BitVec.ofNat 4 (i + k)) := by
  induction n generalizing i k with
  | zero => simp at h
  | succ n ih =>
    cases k with
    | zero => rfl
    | succ k =>
      simp only [State.regsFrom, List.getElem_cons_succ]
      rw [ih]
      congr 2
      omega

@[simp] theorem State.regBlock_length (s : State) (x : Nibble) : (s.regBlock x).length = x.toNat + 1 := by
  simp [State.regBlock]

/-- Byte `k` of the block is register `k`, up to and including `x`. -/
theorem State.regBlock_getElem (s : State) (x : Nibble) (k : Nat) (h : k < (s.regBlock x).length) :
    (s.regBlock x)[k] = s.reg (BitVec.ofNat 4 k) := by
  simp only [State.regBlock]
  rw [State.regsFrom_getElem]
  simp

/-- Registers written from `i` on: register `r` holds byte `r - i`, every other register is untouched. -/
theorem State.setRegsFrom_reg (s : State) (i : Nat) (bs : List Byte) (r : Nibble) (h : i + bs.length ≤ 16) :
    (s.setRegsFrom i bs).reg r =
      if hr : i ≤ r.toNat ∧ r.toNat < i + bs.length then bs[r.toNat - i]'(by omega) else s.reg r := by
  induction bs generalizing s i with
  | nil =>
    have hn : ¬ (i ≤ r.toNat ∧ r.toNat < i + ([] : List Byte).length) := by simp only [List.length_nil]; omega
    rw [dif_neg hn]
    rfl
  | cons b bs ih =>
    simp only [List.length_cons] at h
    simp only [State.setRegsFrom]
    rw [ih _ _ (by omega), State.setReg_reg]
    simp only [List.length_cons]
    have hi : (r = BitVec.ofNat 4 i) ↔ r.toNat = i := by
      rw [← BitVec.toNat_inj, BitVec.toNat_ofNat]
      omega
    by_cases e : r.toNat = i
    · have h1 : ¬ (i + 1 ≤ r.toNat ∧ r.toNat < i + 1 + bs.length) := by omega
      have h2 : i ≤ r.toNat ∧ r.toNat < i + (bs.length + 1) := by omega
      rw [dif_neg h1, dif_pos h2, if_pos (hi.mpr e)]
      simp [e]
    · by_cases e' : i + 1 ≤ r.toNat ∧ r.toNat < i + 1 + bs.length
      · have h2 : i ≤ r.toNat ∧ r.toNat < i + (bs.length + 1) := by omega
        rw [dif_pos e', dif_pos h2]
        have h3 : r.toNat - i = (r.toNat - (i + 1)) + 1 := by omega
        simp only [h3, List.getElem_cons_succ]
      · have h2 : ¬ (i ≤ r.toNat ∧ r.toNat < i + (bs.length + 1)) := by omega
        rw [dif_neg e', dif_neg h2, if_neg (fun q => e (hi.mp q))]

@[simp] theorem State.bcdDigits_length (v : Byte) : (bcdDigits v).length = 3 := rfl

/-! ## The call stack (10_state.md R15) -/

/-- All that a push can do. -/
theorem State.push_cases (s : State) (w : Word) :
    (s.sp.val = 16 ∧ s.push w = none) ∨
    (∃ h : s.sp.val < 16, s.push w =
      some { s with stack := s.stack.set s.sp.val w, sp := ⟨s.sp.val + 1, by omega⟩ }) := by
  unfold State.push
  by_cases h : s.sp.val < 16
  · exact .inr ⟨h, dif_pos h⟩
  · exact .inl ⟨by have := s.sp.isLt; omega, dif_neg h⟩

/-- All that a pop can do. -/
theorem State.pop_cases (s : State) :
    (s.sp.val = 0 ∧ s.pop = none) ∨
    (∃ h : 0 < s.sp.val, s.pop =
      some (s.stack[s.sp.val - 1]'(by have := s.sp.isLt; omega),
        { s with sp := ⟨s.sp.val - 1, by have := s.sp.isLt; omega⟩ })) := by
  unfold State.pop
  by_cases h : s.sp.val = 0
  · exact .inl ⟨h, dif_pos h⟩
  · exact .inr ⟨by omega, dif_neg h⟩

/-! ## The fetch (20_memory.md R34) -/

theorem Word.getLsbD_zero (w : Word) : w.getLsbD 0 = decide (w.toNat % 2 = 1) := by
  simp [BitVec.getLsbD, Nat.testBit_zero]

/-- All that a fetch can do. -/
theorem State.fetch_cases (s : State) :
    (s.pc.toNat % 2 = 1 ∧ s.fetch = .error .fetchMisaligned) ∨
    (s.pc.toNat % 2 = 0 ∧ 0xFFE < s.pc.toNat ∧ s.fetch = .error .fetchOutOfRange) ∨
    (s.pc.toNat % 2 = 0 ∧ s.pc.toNat ≤ 0xFFE ∧ s.fetch = .ok (s.wordAt s.pc.toNat)) := by
  unfold State.fetch
  rw [Word.getLsbD_zero]
  by_cases h : s.pc.toNat % 2 = 1
  · exact .inl ⟨h, by simp [h]⟩
  · have h0 : s.pc.toNat % 2 = 0 := by omega
    by_cases h' : s.pc.toNat > 0xFFE
    · exact .inr (.inl ⟨h0, h', by simp [h, h']⟩)
    · exact .inr (.inr ⟨h0, by omega, by simp [h, h']⟩)

/-! ## The raster engine (43_display.md R110 to R113) -/

@[simp] theorem Framebuffer.pixel_mod (fb : Framebuffer) (x y : Nat) :
    Framebuffer.pixel fb (x % 64) (y % 32) = Framebuffer.pixel fb x y := by
  simp [Framebuffer.pixel]

/-- Inside the screen the pixel is the cell itself. -/
theorem Framebuffer.pixel_eq (fb : Framebuffer) {x y : Nat} (hx : x < 64) (hy : y < 32) :
    Framebuffer.pixel fb x y = fb[y][x] := by
  simp [Framebuffer.pixel, Nat.mod_eq_of_lt hx, Nat.mod_eq_of_lt hy]

/-- A flip inverts one pixel and leaves every other alone. -/
theorem Framebuffer.pixel_flip (fb : Framebuffer) (a b x y : Nat) :
    Framebuffer.pixel (Framebuffer.flip fb a b) x y =
      (Framebuffer.pixel fb x y ^^ decide (a % 64 = x % 64 ∧ b % 32 = y % 32)) := by
  unfold Framebuffer.flip
  conv => lhs; unfold Framebuffer.pixel
  rw [Vector.getElem_set]
  by_cases hy : b % 32 = y % 32
  · rw [if_pos hy, Vector.getElem_set]
    by_cases hx : a % 64 = x % 64
    · rw [if_pos hx]; simp [Framebuffer.pixel, hx, hy]
    · rw [if_neg hx]; simp [Framebuffer.pixel, hx, hy]
  · rw [if_neg hy]; simp [Framebuffer.pixel, hy]

/-- Clear leaves every pixel off (R111). -/
@[simp] theorem Framebuffer.pixel_clear (fb : Framebuffer) (x y : Nat) :
    Framebuffer.pixel (Framebuffer.clear fb) x y = false := by
  simp [Framebuffer.pixel, Framebuffer.clear]

/-- Whether one of the first `k` columns of a row of the sprite lands, set, on the pixel `(px, py)`. -/
def rowCovers (x0 y : Nat) (row : Byte) (k px py : Nat) : Prop :=
  ∃ c, c < k ∧ spriteBit row c = true ∧ (x0 + c) % 64 = px % 64 ∧ y % 32 = py % 32

/-- Whether a set bit of the sprite lands on the pixel `(px, py)` (R112). -/
def spriteCovers (x0 y0 : Nat) (rows : List Byte) (px py : Nat) : Prop :=
  ∃ (r : Nat) (h : r < rows.length) (c : Nat), c < 8 ∧ spriteBit rows[r] c = true ∧
    (x0 + c) % 64 = px % 64 ∧ (y0 + r) % 32 = py % 32

/-- The first `k` columns of a row: each covered pixel is inverted once, and `hit` is set when one was on. -/
theorem blitRow_prefix (x0 y : Nat) (row : Byte) (acc : Framebuffer × Bool) (k : Nat) (hk : k ≤ 8) :
    (∀ px py, (Framebuffer.pixel ((List.range k).foldl (blitBit x0 y row) acc).1 px py = true ↔
        (Framebuffer.pixel acc.1 px py = true ↔ ¬ rowCovers x0 y row k px py))) ∧
    (((List.range k).foldl (blitBit x0 y row) acc).2 = true ↔
        (acc.2 = true ∨
          ∃ c, c < k ∧ spriteBit row c = true ∧ Framebuffer.pixel acc.1 (x0 + c) y = true)) := by
  induction k with
  | zero => simp [rowCovers]
  | succ k ih =>
    obtain ⟨ihp, ihh⟩ := ih (by omega)
    rw [List.range_succ, List.foldl_append]
    simp only [List.foldl_cons, List.foldl_nil]
    generalize (List.range k).foldl (blitBit x0 y row) acc = mid at ihp ihh ⊢
    have hnew : ∀ px py, rowCovers x0 y row (k + 1) px py ↔
        (rowCovers x0 y row k px py ∨
          (spriteBit row k = true ∧ (x0 + k) % 64 = px % 64 ∧ y % 32 = py % 32)) := by
      intro px py
      constructor
      · rintro ⟨c, hc, h⟩
        rcases Nat.lt_succ_iff_lt_or_eq.mp hc with hc | rfl
        · exact .inl ⟨c, hc, h⟩
        · exact .inr h
      · rintro (⟨c, hc, h⟩ | h)
        · exact ⟨c, by omega, h⟩
        · exact ⟨k, by omega, h⟩
    have hdisj : ∀ px py, (x0 + k) % 64 = px % 64 → ¬ rowCovers x0 y row k px py := by
      rintro px py hx ⟨c, hc, -, hx', -⟩
      omega
    unfold blitBit
    by_cases hb : spriteBit row k = true
    · rw [if_pos hb]
      constructor
      · intro px py
        have := ihp px py
        have hn := hnew px py
        have hd := hdisj px py
        rw [Framebuffer.pixel_flip]
        by_cases hl : (x0 + k) % 64 = px % 64 ∧ y % 32 = py % 32
        · simp only [hl, and_self, decide_true, Bool.xor_true, Bool.not_eq_true']
          have h1 : ¬ rowCovers x0 y row k px py := hd hl.1
          have h2 : rowCovers x0 y row (k + 1) px py := hn.mpr (.inr ⟨hb, hl⟩)
          simp only [h1, h2, not_true_eq_false, not_false_eq_true, iff_true, iff_false] at this ⊢
          rw [← this]
          simp
        · have h2 : rowCovers x0 y row (k + 1) px py ↔ rowCovers x0 y row k px py := by
            rw [hn]; simp only [hb, true_and, hl, or_false]
          simp only [hl, decide_false, Bool.xor_false, h2]
          exact this
      · simp only [Bool.or_eq_true]
        have h0 := ihp (x0 + k) y
        have h1 : ¬ rowCovers x0 y row k (x0 + k) y := hdisj _ _ rfl
        simp only [h1, not_false_eq_true, iff_true] at h0
        rw [ihh, h0]
        constructor
        · rintro ((h | ⟨c, hc, h⟩) | h)
          · exact .inl h
          · exact .inr ⟨c, by omega, h⟩
          · exact .inr ⟨k, by omega, hb, h⟩
        · rintro (h | ⟨c, hc, h, h'⟩)
          · exact .inl (.inl h)
          · rcases Nat.lt_succ_iff_lt_or_eq.mp hc with hc | rfl
            · exact .inl (.inr ⟨c, hc, h, h'⟩)
            · exact .inr h'
    · rw [if_neg hb]
      constructor
      · intro px py
        have h2 : rowCovers x0 y row (k + 1) px py ↔ rowCovers x0 y row k px py := by
          rw [hnew]; simp [hb]
        rw [h2]
        exact ihp px py
      · rw [ihh]
        constructor
        · rintro (h | ⟨c, hc, h⟩)
          · exact .inl h
          · exact .inr ⟨c, by omega, h⟩
        · rintro (h | ⟨c, hc, h, h'⟩)
          · exact .inl h
          · rcases Nat.lt_succ_iff_lt_or_eq.mp hc with hc | rfl
            · exact .inr ⟨c, hc, h, h'⟩
            · exact absurd h hb

/-- Two inversions of one pixel that never meet are one inversion. -/
theorem inverted_twice {A B C R Q : Prop} (h₁ : B ↔ (A ↔ ¬ R)) (h₂ : C ↔ (B ↔ ¬ Q)) (hd : R → ¬ Q) :
    C ↔ (A ↔ ¬ (R ∨ Q)) := by
  by_cases hR : R <;> by_cases hQ : Q <;> simp_all

/-- All the rows, at most 32 of them: each covered pixel is inverted once, and `hit` is set when one was on. -/
theorem blitRows_spec (x0 y : Nat) (rows : List Byte) (acc : Framebuffer × Bool) (hl : rows.length ≤ 32) :
    (∀ px py, (Framebuffer.pixel (blitRows x0 y rows acc).1 px py = true ↔
        (Framebuffer.pixel acc.1 px py = true ↔ ¬ spriteCovers x0 y rows px py))) ∧
    ((blitRows x0 y rows acc).2 = true ↔
        (acc.2 = true ∨ ∃ px py, spriteCovers x0 y rows px py ∧ Framebuffer.pixel acc.1 px py = true)) := by
  induction rows generalizing y acc with
  | nil => simp [blitRows, spriteCovers]
  | cons row rows ih =>
    simp only [List.length_cons] at hl
    obtain ⟨ihp, ihh⟩ := ih (y + 1) (blitRow x0 y row acc) (by omega)
    obtain ⟨rp, rh⟩ := blitRow_prefix x0 y row acc 8 (by omega)
    have hrow : (List.range 8).foldl (blitBit x0 y row) acc = blitRow x0 y row acc := rfl
    rw [hrow] at rp rh
    have hsplit : ∀ px py, spriteCovers x0 y (row :: rows) px py ↔
        (rowCovers x0 y row 8 px py ∨ spriteCovers x0 (y + 1) rows px py) := by
      intro px py
      constructor
      · rintro ⟨r, h, c, hc, hb, hx, hy⟩
        cases r with
        | zero => exact .inl ⟨c, hc, hb, hx, hy⟩
        | succ r =>
          simp only [List.length_cons] at h
          exact .inr ⟨r, by omega, c, hc, hb, hx, by rw [← hy]; congr 1; omega⟩
      · rintro (⟨c, hc, hb, hx, hy⟩ | ⟨r, h, c, hc, hb, hx, hy⟩)
        · exact ⟨0, by simp, c, hc, hb, hx, hy⟩
        · exact ⟨r + 1, by simpa using h, c, hc, hb, hx, by rw [← hy]; congr 1; omega⟩
    have hdisj : ∀ px py, rowCovers x0 y row 8 px py → ¬ spriteCovers x0 (y + 1) rows px py := by
      rintro px py ⟨c, -, -, -, hy⟩ ⟨r, h, c', -, -, -, hy'⟩
      omega
    simp only [blitRows]
    constructor
    · intro px py
      rw [hsplit]
      exact inverted_twice (rp px py) (ihp px py) (hdisj px py)
    · rw [ihh, rh]
      constructor
      · rintro ((h | ⟨c, hc, hb, hp⟩) | ⟨px, py, hcov, hp⟩)
        · exact .inl h
        · exact .inr ⟨x0 + c, y, (hsplit _ _).mpr (.inl ⟨c, hc, hb, rfl, rfl⟩), hp⟩
        · have h4 : ¬ rowCovers x0 y row 8 px py := fun q => hdisj px py q hcov
          exact .inr ⟨px, py, (hsplit _ _).mpr (.inr hcov), ((rp px py).mp hp).mpr h4⟩
      · rintro (h | ⟨px, py, hcov, hp⟩)
        · exact .inl (.inl h)
        · rcases (hsplit px py).mp hcov with ⟨c, hc, hb, hx, hy⟩ | hcov'
          · refine .inl (.inr ⟨c, hc, hb, ?_⟩)
            rw [← Framebuffer.pixel_mod, hx, hy, Framebuffer.pixel_mod]
            exact hp
          · have h4 : ¬ rowCovers x0 y row 8 px py := fun q => hdisj px py q hcov'
            exact .inr ⟨px, py, hcov', (rp px py).mpr ⟨fun _ => h4, fun _ => hp⟩⟩

/-- What `Blit` does to a pixel: it is inverted iff a set bit of the sprite lands on it (R112). -/
theorem Framebuffer.blit_pixel (fb : Framebuffer) (x0 y0 : Nat) (rows : List Byte) (hl : rows.length ≤ 32)
    (px py : Nat) :
    Framebuffer.pixel (Framebuffer.blit fb x0 y0 rows).1 px py = true ↔
      (Framebuffer.pixel fb px py = true ↔ ¬ spriteCovers x0 y0 rows px py) :=
  (blitRows_spec x0 y0 rows (fb, false) hl).1 px py

/-- What `Blit` returns: 1 iff a set bit of the sprite landed on a pixel that was on (R113). -/
theorem Framebuffer.blit_hit (fb : Framebuffer) (x0 y0 : Nat) (rows : List Byte) (hl : rows.length ≤ 32) :
    (Framebuffer.blit fb x0 y0 rows).2 = true ↔
      ∃ px py, spriteCovers x0 y0 rows px py ∧ Framebuffer.pixel fb px py = true := by
  have := (blitRows_spec x0 y0 rows (fb, false) hl).2
  simpa [Framebuffer.blit] using this

/-! ## The input latch (44_input_timers.md R120) -/

/-- `is_pressed`: an index of 16 or more names no key. -/
theorem State.isPressed_iff (s : State) (k : Byte) :
    s.isPressed k = true ↔ k.toNat ≤ 15 ∧ s.keys.getLsbD k.toNat = true := by
  simp [State.isPressed]

/-- With some key held, the index answered is that of a held key below which no key is held. -/
theorem State.lowestPressed_spec (s : State) (h : s.anyPressed = true) :
    s.lowestPressed < 16 ∧ s.keys.getLsbD s.lowestPressed = true ∧
      ∀ j, j < s.lowestPressed → s.keys.getLsbD j = false := by
  unfold State.lowestPressed
  cases hf : (List.range 16).find? (fun k => s.keys.getLsbD k) with
  | none =>
    rw [List.find?_eq_none] at hf
    exfalso
    simp only [State.anyPressed, bne_iff_ne, ne_eq] at h
    apply h
    apply BitVec.eq_of_getLsbD_eq
    intro k hk
    have := hf k (List.mem_range.mpr hk)
    simpa using this
  | some k =>
    rw [List.find?_range_eq_some] at hf
    simp only [Option.getD_some]
    refine ⟨List.mem_range.mp hf.2.1, hf.1, fun j hj => ?_⟩
    simpa using hf.2.2 j hj

end Sys2Proof.Machine
end

