-- ==== Sys2Proof/Laws/Exec.lean ====
section
/-! SUPPORT. The six instructions that can fault, each once: it answers its effect or its fault, and when. Every
other instruction's `exec` is one update of State by rfl. -/

namespace Sys2Proof.Machine

/-- CALL: StackOverflow when 16 entries are held, else the push (40_control_flow.md R74). -/
theorem exec_call_cases (nnn : Addr) (s : State) :
    (s.sp.val = 16 ∧ exec (.call nnn) s = .next (raised .stackOverflow (encode (.call nnn)) s)) ∨
    (∃ h : s.sp.val < 16, exec (.call nnn) s =
      .next { s with
        stack := s.stack.set s.sp.val (s.pc + 2), sp := ⟨s.sp.val + 1, by omega⟩, pc := addrOperand nnn }) := by
  show (_ ∧ execCall nnn s = _) ∨ ∃ _, execCall nnn s = _
  unfold execCall
  rcases s.push_cases (s.pc + 2) with ⟨h, e⟩ | ⟨h, e⟩
  · exact .inl ⟨h, by rw [e]; rfl⟩
  · exact .inr ⟨h, by rw [e]; rfl⟩

/-- RET: StackUnderflow when none is held, else the pop (40_control_flow.md R71). -/
theorem exec_ret_cases (s : State) :
    (s.sp.val = 0 ∧ exec .ret s = .next (raised .stackUnderflow (encode .ret) s)) ∨
    (∃ h : 0 < s.sp.val, exec .ret s =
      .next { s with
        sp := ⟨s.sp.val - 1, by have := s.sp.isLt; omega⟩
        pc := s.stack[s.sp.val - 1]'(by have := s.sp.isLt; omega) }) := by
  show (_ ∧ execRet s = _) ∨ ∃ _, execRet s = _
  unfold execRet
  rcases s.pop_cases with ⟨h, e⟩ | ⟨h, e⟩
  · exact .inl ⟨h, by rw [e]; rfl⟩
  · exact .inr ⟨h, by rw [e]; rfl⟩

/-- LD B: MemOutOfRange when `I + 2` passes 0xFFF, else three bytes (42_index_memory.md R102). -/
theorem exec_ldB_cases (x : Nibble) (s : State) :
    (0xFFF < s.I.toNat + 2 ∧ exec (.ldB x) s = .next (raised .memOutOfRange (encode (.ldB x)) s)) ∨
    (s.I.toNat + 2 ≤ 0xFFF ∧
      exec (.ldB x) s = .next (s.writeBytes s.I.toNat (bcdDigits (s.reg x))).advance) := by
  show (_ ∧ execLdB x s = _) ∨ (_ ∧ execLdB x s = _)
  unfold execLdB State.base
  by_cases h : 0xFFF < s.I.toNat + 2
  · exact .inl ⟨h, by rw [State.memWrite_none s (by simp) (by simp only [State.bcdDigits_length]; omega)]; rfl⟩
  · exact .inr ⟨by omega, by rw [State.memWrite_some s (by simp only [State.bcdDigits_length]; omega)]⟩

/-- LD [I], Vx: MemOutOfRange when `I + x` passes 0xFFF, else x + 1 bytes (42_index_memory.md R103). -/
theorem exec_ldMemVx_cases (x : Nibble) (s : State) :
    (0xFFF < s.I.toNat + x.toNat ∧
      exec (.ldMemVx x) s = .next (raised .memOutOfRange (encode (.ldMemVx x)) s)) ∨
    (s.I.toNat + x.toNat ≤ 0xFFF ∧
      exec (.ldMemVx x) s = .next (s.writeBytes s.I.toNat (s.regBlock x)).advance) := by
  show (_ ∧ execLdMemVx x s = _) ∨ (_ ∧ execLdMemVx x s = _)
  unfold execLdMemVx State.base
  by_cases h : 0xFFF < s.I.toNat + x.toNat
  · exact .inl ⟨h, by rw [State.memWrite_none s (by simp) (by simp only [State.regBlock_length]; omega)]; rfl⟩
  · exact .inr ⟨by omega, by rw [State.memWrite_some s (by simp only [State.regBlock_length]; omega)]⟩

/-- LD Vx, [I]: MemOutOfRange when `I + x` passes 0xFFF, else x + 1 registers (42_index_memory.md R104). -/
theorem exec_ldVxMem_cases (x : Nibble) (s : State) :
    (0xFFF < s.I.toNat + x.toNat ∧
      exec (.ldVxMem x) s = .next (raised .memOutOfRange (encode (.ldVxMem x)) s)) ∨
    (s.I.toNat + x.toNat ≤ 0xFFF ∧
      exec (.ldVxMem x) s = .next (s.setRegBlock (s.readBytes s.I.toNat (x.toNat + 1))).advance) := by
  show (_ ∧ execLdVxMem x s = _) ∨ (_ ∧ execLdVxMem x s = _)
  unfold execLdVxMem State.base
  by_cases h : 0xFFF < s.I.toNat + x.toNat
  · exact .inl ⟨h, by rw [State.memRead_none s (by omega) (by omega)]; rfl⟩
  · exact .inr ⟨by omega, by rw [State.memRead_some s (by omega)]⟩

/-- DRW: MemOutOfRange when there is a row above 0xFFF, else the blit and its flag (43_display.md R115). -/
theorem exec_drw_cases (x y n : Nibble) (s : State) :
    (0 < n.toNat ∧ 0xFFF < s.I.toNat + n.toNat - 1 ∧
      exec (.drw x y n) s = .next (raised .memOutOfRange (encode (.drw x y n)) s)) ∨
    ((n.toNat = 0 ∨ s.I.toNat + n.toNat - 1 ≤ 0xFFF) ∧
      ∃ p, p = Framebuffer.blit s.fb (s.reg x).toNat (s.reg y).toNat (s.readBytes s.I.toNat n.toNat) ∧
        exec (.drw x y n) s = .next (({ s with fb := p.1 } : State).setFlag p.2).advance) := by
  show (_ ∧ _ ∧ execDrw x y n s = _) ∨ (_ ∧ ∃ _, _ ∧ execDrw x y n s = _)
  unfold execDrw State.base
  by_cases h : 0 < n.toNat ∧ 0xFFF < s.I.toNat + n.toNat - 1
  · exact .inl ⟨h.1, h.2, by rw [State.memRead_none s (by omega) (by omega)]; rfl⟩
  · exact .inr ⟨by omega, _, rfl, by rw [State.memRead_some s (by omega)]⟩

end Sys2Proof.Machine
end

