-- ==== Sys2Proof/Laws/PerInstr.lean ====
section
/-! SUPPORT. Per instruction: its encoded word selects its own row by the mask and match columns of the opcode map
(30_encoding.md rule R55), copied from the spec as numbers. The two words SYS leaves to CLS and RET are
`WellFormed`'s. -/

namespace Sys2Proof.Laws

/-- The `mask` and `match` columns of rule R55, row by row. -/
def EncodedPattern.maskMatch : Instr → Word × Word
  | .sys _ => (0xF000, 0x0000)
  | .cls => (0xFFFF, 0x00E0)
  | .ret => (0xFFFF, 0x00EE)
  | .jp _ => (0xF000, 0x1000)
  | .call _ => (0xF000, 0x2000)
  | .seVxKk _ _ => (0xF000, 0x3000)
  | .sneVxKk _ _ => (0xF000, 0x4000)
  | .seVxVy _ _ => (0xF00F, 0x5000)
  | .ldVxKk _ _ => (0xF000, 0x6000)
  | .addVxKk _ _ => (0xF000, 0x7000)
  | .ldVxVy _ _ => (0xF00F, 0x8000)
  | .orVxVy _ _ => (0xF00F, 0x8001)
  | .andVxVy _ _ => (0xF00F, 0x8002)
  | .xorVxVy _ _ => (0xF00F, 0x8003)
  | .addVxVy _ _ => (0xF00F, 0x8004)
  | .subVxVy _ _ => (0xF00F, 0x8005)
  | .shrVx _ _ => (0xF00F, 0x8006)
  | .subnVxVy _ _ => (0xF00F, 0x8007)
  | .shlVx _ _ => (0xF00F, 0x800E)
  | .sneVxVy _ _ => (0xF00F, 0x9000)
  | .ldI _ => (0xF000, 0xA000)
  | .jpV0 _ => (0xF000, 0xB000)
  | .rnd _ _ => (0xF000, 0xC000)
  | .drw _ _ _ => (0xF000, 0xD000)
  | .skp _ => (0xF0FF, 0xE09E)
  | .sknp _ => (0xF0FF, 0xE0A1)
  | .ldVxDt _ => (0xF0FF, 0xF007)
  | .ldVxK _ => (0xF0FF, 0xF00A)
  | .ldDtVx _ => (0xF0FF, 0xF015)
  | .ldStVx _ => (0xF0FF, 0xF018)
  | .addI _ => (0xF0FF, 0xF01E)
  | .ldF _ => (0xF0FF, 0xF029)
  | .ldB _ => (0xF0FF, 0xF033)
  | .ldMemVx _ => (0xF0FF, 0xF055)
  | .ldVxMem _ => (0xF0FF, 0xF065)

/-- `opcode & mask = match` (R55) for the instruction's own word. -/
def EncodedPattern.Statement (i : Instr) : Prop :=
  encode i &&& (EncodedPattern.maskMatch i).1 = (EncodedPattern.maskMatch i).2

/-! ### Masks laid out as the formats of R52 -/

theorem mask_nnn (a m : Nibble) (nnn : Addr) :
    (a ++ nnn : BitVec (4 + 12)) &&& (m ++ 0#12) = (a &&& m) ++ 0#12 := by
  rw [BitVec.and_append, BitVec.and_zero]

theorem mask_xkk (a m x : Nibble) (kk k : Byte) :
    (a ++ x ++ kk : BitVec (4 + 4 + 8)) &&& (m ++ 0#4 ++ k) = (a &&& m) ++ 0#4 ++ (kk &&& k) := by
  rw [BitVec.and_append, BitVec.and_append, BitVec.and_zero]

theorem mask_xyn (a m x y n k : Nibble) :
    (a ++ x ++ y ++ n : BitVec (4 + 4 + 4 + 4)) &&& (m ++ 0#4 ++ 0#4 ++ k) =
      (a &&& m) ++ 0#4 ++ 0#4 ++ (n &&& k) := by
  rw [BitVec.and_append, BitVec.and_append, BitVec.and_append, BitVec.and_zero, BitVec.and_zero]

/-! ### One lemma per instruction -/

theorem EncodedPattern.sys (nnn : Addr) : EncodedPattern.Statement (.sys nnn) := mask_nnn 0x0 0xF nnn
theorem EncodedPattern.cls : EncodedPattern.Statement (.cls) := rfl
theorem EncodedPattern.ret : EncodedPattern.Statement (.ret) := rfl
theorem EncodedPattern.jp (nnn : Addr) : EncodedPattern.Statement (.jp nnn) := mask_nnn 0x1 0xF nnn
theorem EncodedPattern.call (nnn : Addr) : EncodedPattern.Statement (.call nnn) := mask_nnn 0x2 0xF nnn
theorem EncodedPattern.seVxKk (x : Nibble) (kk : Byte) : EncodedPattern.Statement (.seVxKk x kk) := 
  (mask_xkk 0x3 0xF x kk 0#8).trans (by rw [BitVec.and_zero]; rfl)
theorem EncodedPattern.sneVxKk (x : Nibble) (kk : Byte) : EncodedPattern.Statement (.sneVxKk x kk) := 
  (mask_xkk 0x4 0xF x kk 0#8).trans (by rw [BitVec.and_zero]; rfl)
theorem EncodedPattern.seVxVy (x : Nibble) (y : Nibble) : EncodedPattern.Statement (.seVxVy x y) := mask_xyn 0x5 0xF x y 0x0 0xF
theorem EncodedPattern.ldVxKk (x : Nibble) (kk : Byte) : EncodedPattern.Statement (.ldVxKk x kk) := 
  (mask_xkk 0x6 0xF x kk 0#8).trans (by rw [BitVec.and_zero]; rfl)
theorem EncodedPattern.addVxKk (x : Nibble) (kk : Byte) : EncodedPattern.Statement (.addVxKk x kk) := 
  (mask_xkk 0x7 0xF x kk 0#8).trans (by rw [BitVec.and_zero]; rfl)
theorem EncodedPattern.ldVxVy (x : Nibble) (y : Nibble) : EncodedPattern.Statement (.ldVxVy x y) := mask_xyn 0x8 0xF x y 0x0 0xF
theorem EncodedPattern.orVxVy (x : Nibble) (y : Nibble) : EncodedPattern.Statement (.orVxVy x y) := mask_xyn 0x8 0xF x y 0x1 0xF
theorem EncodedPattern.andVxVy (x : Nibble) (y : Nibble) : EncodedPattern.Statement (.andVxVy x y) := mask_xyn 0x8 0xF x y 0x2 0xF
theorem EncodedPattern.xorVxVy (x : Nibble) (y : Nibble) : EncodedPattern.Statement (.xorVxVy x y) := mask_xyn 0x8 0xF x y 0x3 0xF
theorem EncodedPattern.addVxVy (x : Nibble) (y : Nibble) : EncodedPattern.Statement (.addVxVy x y) := mask_xyn 0x8 0xF x y 0x4 0xF
theorem EncodedPattern.subVxVy (x : Nibble) (y : Nibble) : EncodedPattern.Statement (.subVxVy x y) := mask_xyn 0x8 0xF x y 0x5 0xF
theorem EncodedPattern.shrVx (x : Nibble) (y : Nibble) : EncodedPattern.Statement (.shrVx x y) := mask_xyn 0x8 0xF x y 0x6 0xF
theorem EncodedPattern.subnVxVy (x : Nibble) (y : Nibble) : EncodedPattern.Statement (.subnVxVy x y) := mask_xyn 0x8 0xF x y 0x7 0xF
theorem EncodedPattern.shlVx (x : Nibble) (y : Nibble) : EncodedPattern.Statement (.shlVx x y) := mask_xyn 0x8 0xF x y 0xE 0xF
theorem EncodedPattern.sneVxVy (x : Nibble) (y : Nibble) : EncodedPattern.Statement (.sneVxVy x y) := mask_xyn 0x9 0xF x y 0x0 0xF
theorem EncodedPattern.ldI (nnn : Addr) : EncodedPattern.Statement (.ldI nnn) := mask_nnn 0xA 0xF nnn
theorem EncodedPattern.jpV0 (nnn : Addr) : EncodedPattern.Statement (.jpV0 nnn) := mask_nnn 0xB 0xF nnn
theorem EncodedPattern.rnd (x : Nibble) (kk : Byte) : EncodedPattern.Statement (.rnd x kk) := 
  (mask_xkk 0xC 0xF x kk 0#8).trans (by rw [BitVec.and_zero]; rfl)
theorem EncodedPattern.drw (x : Nibble) (y : Nibble) (n : Nibble) : EncodedPattern.Statement (.drw x y n) := 
  (mask_xyn 0xD 0xF x y n 0#4).trans (by rw [BitVec.and_zero]; rfl)
theorem EncodedPattern.skp (x : Nibble) : EncodedPattern.Statement (.skp x) := mask_xkk 0xE 0xF x 0x9E 0xFF
theorem EncodedPattern.sknp (x : Nibble) : EncodedPattern.Statement (.sknp x) := mask_xkk 0xE 0xF x 0xA1 0xFF
theorem EncodedPattern.ldVxDt (x : Nibble) : EncodedPattern.Statement (.ldVxDt x) := mask_xkk 0xF 0xF x 0x07 0xFF
theorem EncodedPattern.ldVxK (x : Nibble) : EncodedPattern.Statement (.ldVxK x) := mask_xkk 0xF 0xF x 0x0A 0xFF
theorem EncodedPattern.ldDtVx (x : Nibble) : EncodedPattern.Statement (.ldDtVx x) := mask_xkk 0xF 0xF x 0x15 0xFF
theorem EncodedPattern.ldStVx (x : Nibble) : EncodedPattern.Statement (.ldStVx x) := mask_xkk 0xF 0xF x 0x18 0xFF
theorem EncodedPattern.addI (x : Nibble) : EncodedPattern.Statement (.addI x) := mask_xkk 0xF 0xF x 0x1E 0xFF
theorem EncodedPattern.ldF (x : Nibble) : EncodedPattern.Statement (.ldF x) := mask_xkk 0xF 0xF x 0x29 0xFF
theorem EncodedPattern.ldB (x : Nibble) : EncodedPattern.Statement (.ldB x) := mask_xkk 0xF 0xF x 0x33 0xFF
theorem EncodedPattern.ldMemVx (x : Nibble) : EncodedPattern.Statement (.ldMemVx x) := mask_xkk 0xF 0xF x 0x55 0xFF
theorem EncodedPattern.ldVxMem (x : Nibble) : EncodedPattern.Statement (.ldVxMem x) := mask_xkk 0xF 0xF x 0x65 0xFF

end Sys2Proof.Laws
end

