-- ==== Sys2Proof/Machine/Assembly.lean ====
section
/-! DEFINITION. The assembler syntax (30_encoding.md rules R60 to R62): mnemonics, operands, and the listing line of
the diagnostic disassembly. No behaviour of the machine depends on it (D33); the mnemonics but CLS and SE are the
spec's general knowledge (G6, log 5). -/

namespace Sys2Proof

/-- An operand as R61 spells it, destination first. -/
inductive AsmOperand where
  /-- `V0` to `VF` -/
  | reg (x : Nibble)
  /-- `kk`, `nnn` or `n` -/
  | num (v : Nat)
  /-- `I`, the index register -/
  | index
  /-- `[I]`, memory at `I` -/
  | atIndex
  /-- `DT`, the delay timer -/
  | dt
  /-- `ST`, the sound timer -/
  | st
  /-- `K`, the keypad -/
  | key
  /-- `F`, the font: a glyph address -/
  | font
  /-- `B`, BCD -/
  | bcd
deriving DecidableEq, Repr

/-- The mnemonic and the operands of an instruction (R55, R61). SHR and SHL name no `Vy` (R53). -/
def Instr.asm : Instr → String × List AsmOperand
  | .sys nnn => ("SYS", [.num nnn.toNat])
  | .cls => ("CLS", [])
  | .ret => ("RET", [])
  | .jp nnn => ("JP", [.num nnn.toNat])
  | .call nnn => ("CALL", [.num nnn.toNat])
  | .seVxKk x kk => ("SE", [.reg x, .num kk.toNat])
  | .sneVxKk x kk => ("SNE", [.reg x, .num kk.toNat])
  | .seVxVy x y => ("SE", [.reg x, .reg y])
  | .ldVxKk x kk => ("LD", [.reg x, .num kk.toNat])
  | .addVxKk x kk => ("ADD", [.reg x, .num kk.toNat])
  | .ldVxVy x y => ("LD", [.reg x, .reg y])
  | .orVxVy x y => ("OR", [.reg x, .reg y])
  | .andVxVy x y => ("AND", [.reg x, .reg y])
  | .xorVxVy x y => ("XOR", [.reg x, .reg y])
  | .addVxVy x y => ("ADD", [.reg x, .reg y])
  | .subVxVy x y => ("SUB", [.reg x, .reg y])
  | .shrVx x _ => ("SHR", [.reg x])
  | .subnVxVy x y => ("SUBN", [.reg x, .reg y])
  | .shlVx x _ => ("SHL", [.reg x])
  | .sneVxVy x y => ("SNE", [.reg x, .reg y])
  | .ldI nnn => ("LD", [.index, .num nnn.toNat])
  | .jpV0 nnn => ("JP", [.reg 0, .num nnn.toNat])
  | .rnd x kk => ("RND", [.reg x, .num kk.toNat])
  | .drw x y n => ("DRW", [.reg x, .reg y, .num n.toNat])
  | .skp x => ("SKP", [.reg x])
  | .sknp x => ("SKNP", [.reg x])
  | .ldVxDt x => ("LD", [.reg x, .dt])
  | .ldVxK x => ("LD", [.reg x, .key])
  | .ldDtVx x => ("LD", [.dt, .reg x])
  | .ldStVx x => ("LD", [.st, .reg x])
  | .addI x => ("ADD", [.index, .reg x])
  | .ldF x => ("LD", [.font, .reg x])
  | .ldB x => ("LD", [.bcd, .reg x])
  | .ldMemVx x => ("LD", [.atIndex, .reg x])
  | .ldVxMem x => ("LD", [.reg x, .atIndex])

/-- An uppercase hexadecimal digit. -/
def hexDigit (v : Nibble) : Char :=
  ['0', '1', '2', '3', '4', '5', '6', '7', '8', '9', 'A', 'B', 'C', 'D', 'E', 'F'].getD v.toNat '0'

/-- "4-digit uppercase hex" (R60). -/
def hexWord (w : Word) : List Char :=
  [hexDigit (opField w), hexDigit (xField w), hexDigit (yField w), hexDigit (nField w)]

/-- An operand's text. How a number prints is open (R61): `Config.numberText`, log 7. -/
def AsmOperand.text : AsmOperand → List Char
  | .reg x => ['V', hexDigit x]
  | .num v => (Config.numberText v).toList
  | .index => ['I']
  | .atIndex => ['[', 'I', ']']
  | .dt => ['D', 'T']
  | .st => ['S', 'T']
  | .key => ['K']
  | .font => ['F']
  | .bcd => ['B']

/-- A mnemonic and its operands, a comma and a space between two operands (R61). -/
def asmText (mnemonic : String) (ops : List AsmOperand) : List Char :=
  mnemonic.toList ++ (if ops.isEmpty then [] else [' ']) ++
    ((ops.map AsmOperand.text).intersperse [',', ' ']).flatten

/-- `disassemble(w)`: the text of an instruction, or the sentinel of an unknown opcode; never an error (R61). -/
def disassemble (w : Word) : List Char :=
  match decode w with
  | .instr i => asmText i.asm.1 i.asm.2
  | .unknown => Config.unknownText.toList

/-- The listing line `ADDR [OPCODE]: MNEMONIC OPERANDS` of the word at an address (R60). -/
def listingLine (addr w : Word) : List Char :=
  hexWord addr ++ [' ', '['] ++ hexWord w ++ [']', ':', ' '] ++ disassemble w

end Sys2Proof
end

