-- ==== Sys2Proof/Tests/Slice0.lean ====
section
/-! SUPPORT. The model's own tests. Every expected result is a vector of spec/95_test_vectors.md (its section or id
stands in the comment) or a boundary of a rule; then a witness for every obligation that has hypotheses. -/

namespace Sys2Proof.Tests

open Sys2Proof Sys2Proof.Machine

/-! ## Helpers -/

/-- A state with some registers set. -/
def regs (l : List (Nibble × Byte)) (s : State) : State := l.foldl (fun s p => s.setReg p.1 p.2) s

/-- Bytes put into memory from an address on. -/
def mem (a : Nat) (l : List Byte) (s : State) : State := s.writeBytes a l

/-- One Step with the instruction `w` placed at `pc`, and what `f` sees of the state after it. -/
def run1 {α : Type} (f : State → α) (w : Nat) (s : State) : Option α :=
  match step (s.withFetchWord 16 w) with
  | .next t => some (f t)
  | _ => none

/-- The state an instruction leaves (`s` itself should it answer no next state). -/
def after (i : Instr) (s : State) : State :=
  match exec i s with
  | .next t => t
  | _ => s

/-- The lit pixels among some positions `(x, y)`. -/
def lit (l : List (Nat × Nat)) (s : State) : List Bool := l.map (fun p => Framebuffer.pixel s.fb p.1 p.2)

/-- How many pixels of the eight left columns and eight top rows are on. -/
def litCorner (s : State) : Nat :=
  ((List.range 8).map (fun y => ((List.range 8).filter (fun x => Framebuffer.pixel s.fb x y)).length)).sum

/-! ## Well-formedness: an ill-formed term for each check, which the check refuses -/

/-- 0x00E0 is CLS and 0x00EE is RET: no SYS has these words (30_encoding.md R54). -/
theorem test_wellFormed_refuses : WellFormed (.sys 0x0E0) = false ∧ WellFormed (.sys 0x0EE) = false := by decide

theorem test_wellFormed_accepts : WellFormed (.sys 0x0E1) = true ∧ WellFormed (.sys 0x0EF) = true := by decide

/-! ## Decoding: the table of 95_test_vectors.md section 2.1, one word or more per constructor -/

theorem test_decode_control :
    decode 0x0000 = .instr (.sys 0x000) ∧ decode 0x0FFF = .instr (.sys 0xFFF) ∧
    decode 0x00E0 = .instr .cls ∧ decode 0x00EE = .instr .ret ∧
    decode 0x1ABC = .instr (.jp 0xABC) ∧ decode 0x2ABC = .instr (.call 0xABC) ∧
    decode 0xBABC = .instr (.jpV0 0xABC) := by decide

theorem test_decode_skips :
    decode 0x3A7F = .instr (.seVxKk 0xA 0x7F) ∧ decode 0x4A7F = .instr (.sneVxKk 0xA 0x7F) ∧
    decode 0x5AB0 = .instr (.seVxVy 0xA 0xB) ∧ decode 0x9AB0 = .instr (.sneVxVy 0xA 0xB) ∧
    decode 0xEA9E = .instr (.skp 0xA) ∧ decode 0xEAA1 = .instr (.sknp 0xA) := by decide

theorem test_decode_immediates :
    decode 0x6A7F = .instr (.ldVxKk 0xA 0x7F) ∧ decode 0x7A7F = .instr (.addVxKk 0xA 0x7F) ∧
    decode 0xAABC = .instr (.ldI 0xABC) ∧ decode 0xCA7F = .instr (.rnd 0xA 0x7F) ∧
    decode 0xDAB5 = .instr (.drw 0xA 0xB 5) := by decide

theorem test_decode_alu :
    decode 0x8AB0 = .instr (.ldVxVy 0xA 0xB) ∧ decode 0x8AB1 = .instr (.orVxVy 0xA 0xB) ∧
    decode 0x8AB2 = .instr (.andVxVy 0xA 0xB) ∧ decode 0x8AB3 = .instr (.xorVxVy 0xA 0xB) ∧
    decode 0x8AB4 = .instr (.addVxVy 0xA 0xB) ∧ decode 0x8AB5 = .instr (.subVxVy 0xA 0xB) ∧
    decode 0x8AB6 = .instr (.shrVx 0xA 0xB) ∧ decode 0x8AB7 = .instr (.subnVxVy 0xA 0xB) ∧
    decode 0x8ABE = .instr (.shlVx 0xA 0xB) := by decide

theorem test_decode_f :
    decode 0xFA07 = .instr (.ldVxDt 0xA) ∧ decode 0xFA0A = .instr (.ldVxK 0xA) ∧
    decode 0xFA15 = .instr (.ldDtVx 0xA) ∧ decode 0xFA18 = .instr (.ldStVx 0xA) ∧
    decode 0xFA1E = .instr (.addI 0xA) ∧ decode 0xFA29 = .instr (.ldF 0xA) ∧
    decode 0xFA33 = .instr (.ldB 0xA) ∧ decode 0xFA55 = .instr (.ldMemVx 0xA) ∧
    decode 0xFA65 = .instr (.ldVxMem 0xA) := by decide

theorem test_decode_unknown :
    decode 0x5AB1 = .unknown ∧ decode 0x8AB8 = .unknown ∧ decode 0x8ABD = .unknown ∧
    decode 0x8ABF = .unknown ∧ decode 0x9ABF = .unknown ∧ decode 0xEA9F = .unknown ∧
    decode 0xEAA0 = .unknown ∧ decode 0xFA75 = .unknown ∧ decode 0xFAFF = .unknown := by decide

theorem test_decodeBytes :
    decodeBytes [0x12, 0x34, 0x56] = .ok (.jp 0x234, [0x56]) ∧ decodeBytes [0x12] = .error .tooShort ∧
    decodeBytes [0x51, 0x21] = .error (.unknownOpcode 0x5121) ∧ decodeTableWord 16 0xDAB5 = some (.drw 0xA 0xB 5) ∧
    decodeTableWord 16 0x5AB1 = none := by decide

/-- 30_encoding.md R60's own example of a listing line, and S7. -/
theorem test_listing :
    listingLine 0x200 0x00E0 = ['0', '2', '0', '0', ' ', '[', '0', '0', 'E', '0', ']', ':', ' ', 'C', 'L', 'S'] ∧
    (Instr.seVxKk 3 0x2A).asm = ("SE", [.reg 3, .num 0x2A]) := by decide

/-! ## Fetch (section 2.2) -/

theorem test_fetch_high_byte_first : run1 State.pc 0x1234 State.reset = some 0x234 := by decide

theorem test_fetch_last_word :
    run1 (fun t => (t.pc, t.run)) 0x0000 { State.reset with pc := 0xFFE } = some (0x1000, .running) := by decide

theorem test_fetch_faults :
    step { State.reset with pc := 0x1000 } =
      .next { State.reset with pc := 0x1000, run := .faulted, fault := some ⟨.fetchOutOfRange, 0x1000, none⟩ } ∧
    step { State.reset with pc := 0x1001 } =
      .next { State.reset with pc := 0x1001, run := .faulted, fault := some ⟨.fetchMisaligned, 0x1001, none⟩ } :=
  ⟨rfl, rfl⟩

/-- `pc = 0x0000` with the canonical font: 0xF090 is UNKNOWN. -/
theorem test_fetch_from_font : step { State.reset with pc := 0 } = .next { State.reset with pc := 2 } := rfl

theorem test_fault_codes :
    [Fault.stackOverflow, .stackUnderflow, .memOutOfRange, .fetchOutOfRange, .fetchMisaligned].map Fault.code =
      [1, 2, 3, 4, 5] := by decide

/-- S9: an unknown opcode only advances. -/
theorem test_unknown : run1 (fun t => (t.pc, t.run, t.fault)) 0x8128 State.reset = some (0x202, .running, none) := by
  decide

/-! ## Control flow (section 2.3) -/

theorem test_sys : run1 State.pc 0x0123 State.reset = some 0x202 := by decide

theorem test_jp : run1 State.pc 0x1FFF State.reset = some 0x0FFF := by decide

/-- Unmasked, and V0 whatever `x` is. -/
theorem test_jpV0 :
    run1 State.pc 0xBFFF (regs [(0, 0xFF)] State.reset) = some 0x10FE ∧
    run1 State.pc 0xB500 (regs [(5, 0x02)] State.reset) = some 0x0500 := by decide

theorem test_call :
    run1 (fun t => (t.pc, t.sp, t.stack[0])) 0x2300 { State.reset with pc := 0x202 } =
      some (0x300, 1, 0x204) := by decide

/-- S17: fault code 1, nothing else changed. -/
theorem test_call_full :
    run1 (fun t => (t.fault, t.pc, t.sp)) 0x2300 { State.reset with sp := 16 } =
      some (some ⟨.stackOverflow, 0x200, some 0x2300⟩, 0x200, 16) := by decide

theorem test_ret :
    run1 (fun t => (t.pc, t.sp, t.stack[0])) 0x00EE
      { State.reset with sp := 1, stack := (Vector.replicate 16 0).set 0 0x204 } = some (0x204, 0, 0x204) := by decide

/-- S16: fault code 2. -/
theorem test_ret_empty :
    run1 (fun t => (t.fault, t.pc, t.run)) 0x00EE State.reset =
      some (some ⟨.stackUnderflow, 0x200, some 0x00EE⟩, 0x200, .faulted) := by decide

/-- S10. -/
theorem test_seVxKk :
    run1 State.pc 0x332A (regs [(3, 0x2A)] State.reset) = some 0x204 ∧
    run1 State.pc 0x332B (regs [(3, 0x2A)] State.reset) = some 0x202 := by decide

theorem test_sneVxKk :
    run1 State.pc 0x432A (regs [(3, 0x2A)] State.reset) = some 0x202 ∧
    run1 State.pc 0x432B (regs [(3, 0x2A)] State.reset) = some 0x204 := by decide

theorem test_seVxVy :
    run1 State.pc 0x5120 (regs [(1, 7), (2, 7)] State.reset) = some 0x204 ∧
    run1 State.pc 0x5120 (regs [(1, 7), (2, 8)] State.reset) = some 0x202 := by decide

theorem test_sneVxVy :
    run1 State.pc 0x9120 (regs [(1, 7), (2, 7)] State.reset) = some 0x202 ∧
    run1 State.pc 0x9120 (regs [(1, 7), (2, 8)] State.reset) = some 0x204 := by decide

/-! ## Loads and ALU (section 2.4): V1, VF and pc after -/

/-- What the rows of section 2.4 list. -/
def v1f (t : State) : Byte × Byte × Word := (t.reg 1, t.reg 0xF, t.pc)

/-- V1, V2 and VF before. -/
def abf (a b f : Byte) : State := regs [(1, a), (2, b), (0xF, f)] State.reset

theorem test_ldVxKk : run1 v1f 0x613C (abf 0xAA 0 1) = some (0x3C, 1, 0x202) := by decide

theorem test_ldVxVy : run1 v1f 0x8120 (abf 0xAA 0x55 1) = some (0x55, 1, 0x202) := by decide

theorem test_addVxKk : run1 v1f 0x7103 (abf 0xFE 0 0) = some (0x01, 0, 0x202) := by decide

/-- ADD VF,0x01: the one register wraps. -/
theorem test_addVxKk_vf : run1 v1f 0x7F01 (abf 0 0 0xFF) = some (0, 0, 0x202) := by decide

theorem test_or : run1 v1f 0x8121 (abf 0xF0 0x0F 1) = some (0xFF, 1, 0x202) := by decide

theorem test_and : run1 v1f 0x8122 (abf 0xF3 0x3C 1) = some (0x30, 1, 0x202) := by decide

theorem test_xor : run1 v1f 0x8123 (abf 0xFF 0x0F 1) = some (0xF0, 1, 0x202) := by decide

theorem test_add :
    run1 v1f 0x8124 (abf 0xC8 0x64 0) = some (0x2C, 1, 0x202) ∧
    run1 v1f 0x8124 (abf 0x80 0x7F 1) = some (0xFF, 0, 0x202) := by decide

/-- ADD VF,V2 keeps the carry and loses the sum; ADD V1,VF reads the old VF. -/
theorem test_add_vf :
    run1 v1f 0x8F24 (abf 0 0x02 0xFF) = some (0, 1, 0x202) ∧
    run1 v1f 0x81F4 (abf 0x10 0 1) = some (0x11, 0, 0x202) := by decide

theorem test_sub :
    run1 v1f 0x8125 (abf 0x05 0x07 1) = some (0xFE, 0, 0x202) ∧
    run1 v1f 0x8125 (abf 0x05 0x05 1) = some (0x00, 0, 0x202) := by decide

theorem test_sub_vf : run1 v1f 0x8F25 (abf 0 0x01 0x09) = some (0, 1, 0x202) := by decide

theorem test_subn :
    run1 v1f 0x8127 (abf 0x05 0x07 0) = some (0x02, 1, 0x202) ∧
    run1 v1f 0x8127 (abf 0x07 0x05 1) = some (0xFE, 0, 0x202) := by decide

theorem test_subn_equal : run1 v1f 0x8127 (abf 0x05 0x05 1) = some (0x00, 0, 0x202) := by decide

theorem test_shr :
    run1 v1f 0x8126 (abf 0x03 0xFF 0) = some (0x01, 1, 0x202) ∧
    run1 v1f 0x8126 (abf 0xFE 0 1) = some (0x7F, 0, 0x202) := by decide

theorem test_shr_vf : run1 v1f 0x8F06 (abf 0 0 0x03) = some (0, 1, 0x202) := by decide

theorem test_shl :
    run1 v1f 0x812E (abf 0x81 0xFF 0) = some (0x02, 1, 0x202) ∧
    run1 v1f 0x812E (abf 0x7F 0 1) = some (0xFE, 0, 0x202) := by decide

theorem test_shl_vf : run1 v1f 0x8F0E (abf 0 0 0x41) = some (0, 0, 0x202) := by decide

/-- RND V1,0x00 gives 0 for any draw. -/
theorem test_rnd_zero : ((after (.rnd 1 0) (abf 0xAA 0 1)).reg 1).toNat = 0 := by
  have h : (after (.rnd 1 0) (abf 0xAA 0 1)).reg 1 = Config.rnd 0 &&& 0#8 := rfl
  rw [h, BitVec.and_zero]; rfl

/-- RND V1,0xFF gives the draw itself. -/
theorem test_rnd_all : (after (.rnd 1 0xFF) (abf 0xAA 0 1)).reg 1 = Config.rnd 0 := by
  have h : (after (.rnd 1 0xFF) (abf 0xAA 0 1)).reg 1 = Config.rnd 0 &&& BitVec.allOnes 8 := rfl
  rw [h, BitVec.and_allOnes]

/-! ## Index and memory (section 2.5) -/

theorem test_ldI : run1 State.I 0xA2F0 { State.reset with I := 0xFFFF } = some 0x02F0 := by decide

theorem test_ldF :
    run1 State.I 0xF129 (regs [(1, 0x0F)] State.reset) = some 0x004B ∧
    run1 State.I 0xF129 (regs [(1, 0xFF)] State.reset) = some 0x04FB := by decide

theorem test_addI :
    run1 (fun t => (t.I, t.reg 0xF)) 0xF21E (regs [(2, 0x01)] { State.reset with I := 0x0FFF }) =
      some (0x1000, 0) ∧
    run1 State.I 0xF21E (regs [(2, 0xFF)] { State.reset with I := 0xFFFF }) = some 0x00FE := by decide

theorem test_ldB :
    run1 (fun t => (t.readBytes 0x300 4, t.I)) 0xF033 (regs [(0, 0xEA)] { State.reset with I := 0x300 }) =
      some ([2, 3, 4, 0], 0x300) := by decide

/-- The last place that fits, and the first that does not. -/
theorem test_ldB_edge :
    run1 (fun t => t.readBytes 0xFFD 3) 0xF033 (regs [(0, 0xFF)] { State.reset with I := 0xFFD }) =
      some [2, 5, 5] ∧
    run1 (fun t => (t.fault, t.readBytes 0xFFE 2)) 0xF033 (regs [(0, 0xFF)] { State.reset with I := 0xFFE }) =
      some (some ⟨.memOutOfRange, 0x200, some 0xF033⟩, [0, 0]) := by decide

/-- S19: three bytes for x = 2, the fourth is left alone. -/
theorem test_ldMemVx :
    run1 (fun t => (t.readBytes 0x400 4, t.I)) 0xF255
      (mem 0x403 [0x99] (regs [(0, 0x11), (1, 0x22), (2, 0x33)] { State.reset with I := 0x400 })) =
      some ([0x11, 0x22, 0x33, 0x99], 0x400) := by decide

theorem test_ldMemVx_edge :
    run1 (fun t => (t.readByte 0xFFF, t.run)) 0xF055 (regs [(0, 0x42)] { State.reset with I := 0xFFF }) =
      some (0x42, .running) ∧
    run1 (fun t => (t.readByte 0xFFF, t.run)) 0xFF55 (regs [(0, 0x42)] { State.reset with I := 0xFF1 }) =
      some (0, .faulted) := by decide

theorem test_ldVxMem :
    run1 (fun t => (t.reg 0, t.reg 1, t.reg 2, t.reg 3)) 0xF265
      (mem 0x400 [0x11, 0x22, 0x33, 0x44] (regs [(3, 0x77)] { State.reset with I := 0x400 })) =
      some (0x11, 0x22, 0x33, 0x77) := by decide

theorem test_ldVxMem_edge :
    run1 (fun t => (t.fault, t.reg 0)) 0xF165 (mem 0xFFF [0xAB] { State.reset with I := 0xFFF }) =
      some (some ⟨.memOutOfRange, 0x200, some 0xF165⟩, 0) := by decide

/-- The canonical font at reset: glyph 0. -/
theorem test_font : State.reset.readBytes 0 5 = [0xF0, 0x90, 0x90, 0x90, 0xF0] := by decide

/-! ## Display (section 2.6) -/

/-- `I = 0x300` and a sprite there. -/
def sprite (l : List Byte) (s : State) : State := mem 0x300 l { s with I := 0x300 }

/-- CLS leaves VF alone. -/
theorem test_cls :
    run1 (fun t => (lit [(3, 3)] t, t.reg 0xF)) 0x00E0
      (regs [(0xF, 1)] { State.reset with fb := Framebuffer.flip State.reset.fb 3 3 }) =
      some ([false], 1) := by decide

/-- Bit 7 is the leftmost column; columns and rows wrap per pixel. -/
theorem test_drw_wraps :
    run1 (fun t => (lit [(60, 31), (63, 31), (0, 31), (3, 31), (4, 31), (0, 0), (62, 0), (63, 0)] t, t.reg 0xF))
      0xD012 (regs [(0, 60), (1, 31)] (sprite [0xFF, 0x10] State.reset)) =
      some ([true, true, true, true, false, false, false, true], 0) := by decide

/-- A pixel turned off is the collision; one turned on beside a lit one is none, and clears VF. -/
theorem test_drw_collision :
    run1 (fun t => (lit [(0, 0), (1, 0)] t, t.reg 0xF)) 0xD011
      (sprite [0xC0] { State.reset with fb := Framebuffer.flip State.reset.fb 1 0 }) =
      some ([true, false], 1) ∧
    run1 (fun t => (lit [(0, 0), (1, 0)] t, t.reg 0xF)) 0xD011
      (regs [(0xF, 1)] (sprite [0x80] { State.reset with fb := Framebuffer.flip State.reset.fb 1 0 })) =
      some ([true, true], 0) := by decide

/-- S6: 40 pixels and no collision, then none and a collision. -/
theorem test_drw_twice :
    (fun t => (litCorner t, t.reg 0xF)) (after (.drw 0 1 5) (sprite [0xFF, 0xFF, 0xFF, 0xFF, 0xFF] State.reset)) =
      (40, 0) ∧
    (fun t => (litCorner t, t.reg 0xF))
      (after (.drw 0 1 5) (after (.drw 0 1 5) (sprite [0xFF, 0xFF, 0xFF, 0xFF, 0xFF] State.reset))) =
      (0, 1) := by decide

/-- Out of range: no pixel, no VF; `n = 0` cannot fault and clears VF. -/
theorem test_drw_edge :
    run1 (fun t => (t.fault, t.reg 0xF)) 0xD012 (regs [(0xF, 1)] { State.reset with I := 0xFFF }) =
      some (some ⟨.memOutOfRange, 0x200, some 0xD012⟩, 1) ∧
    run1 (fun t => (t.run, t.reg 0xF)) 0xD010 (regs [(0xF, 1)] { State.reset with I := 0xFFFF }) =
      some (.running, 0) := by decide

/-! ## Input, timers and the other events (section 2.7) -/

theorem test_skp :
    run1 State.pc 0xE19E (regs [(1, 5)] { State.reset with keys := 0x0020 }) = some 0x204 ∧
    run1 State.pc 0xE19E (regs [(1, 0x15)] { State.reset with keys := 0xFFFF }) = some 0x202 := by decide

theorem test_sknp :
    run1 State.pc 0xE1A1 (regs [(1, 5)] { State.reset with keys := 0x0020 }) = some 0x202 ∧
    run1 State.pc 0xE1A1 (regs [(1, 0x10)] { State.reset with keys := 0xFFFF }) = some 0x204 := by decide

/-- S14, S13. -/
theorem test_ldVxK :
    run1 v1f 0xF10A { State.reset with keys := 0x0028, pc := 0x204 } = some (0x03, 0, 0x206) ∧
    run1 v1f 0xF10A { regs [(1, 0x77)] State.reset with pc := 0x204 } = some (0x77, 0, 0x204) := by decide

theorem test_ldVxK_highest :
    run1 (State.reg · 2) 0xF20A { State.reset with keys := 0x8000 } = some 0x0F := by decide

theorem test_ldVxDt : run1 (State.reg · 2) 0xF207 { State.reset with dt := 7 } = some 7 := by decide

theorem test_ldDtVx : run1 (fun t => (t.dt, t.st)) 0xF015 (regs [(0, 0x0A)] State.reset) = some (0x0A, 0) := by decide

theorem test_ldStVx :
    run1 (fun t => (t.dt, t.st, t.tone)) 0xF018 (regs [(0, 0x03)] State.reset) = some (0, 3, true) := by decide

theorem test_timerTick :
    (fun t : State => (t.dt, t.st)) ({ State.reset with dt := 2, st := 1 } : State).timerTick.timerTick = (0, 0) := by
  decide

theorem test_keyUpdate : (State.reset.keyUpdate 0xBEEF).keys = 0xBEEF := by decide

/-- Faulted: a TimerTick and a KeyUpdate change nothing; Reset leaves Faulted. -/
theorem test_faulted :
    ({ State.reset with run := .faulted, dt := 5 } : State).timerTick.dt = 5 ∧
    (({ State.reset with run := .faulted } : State).keyUpdate 1).keys = 0 ∧
    ({ State.reset with run := .faulted } : State).resetEvent.run = .running := by decide

/-- P1's image: its first word is the first the Step fetches (70_reset_and_hazards.md R152). -/
theorem test_loadRom :
    runEvents [.loadRom [0x60, 0xFF, 0x61, 0x02], .step] State.reset =
      .next (State.reset.writeBytes 0x200 [0x60, 0xFF, 0x61, 0x02] |>.setReg 0 0xFF |>.advance) := by rfl

/-- A LoadRom after a Step is against the required order; after a Reset it may come again (D30). -/
theorem test_schedule :
    Event.scheduleLegal true [.loadRom [], .step, .timerTick, .keyUpdate 1, .hostRead, .reset, .loadRom []] = true ∧
    Event.scheduleLegal true [.step, .loadRom []] = false ∧
    Event.scheduleLegal true [.loadRom [], .loadRom []] = false := by decide

/-! ## Witnesses: for each obligation with hypotheses, a state and operands that meet them together -/

/-- A state that holds no more and no less than `k` return addresses, all 0x1000. -/
def depth (k : Fin 17) : State := { State.reset with sp := k, stack := Vector.replicate 16 0x1000 }

/-- A Faulted state, as a RET on the empty stack leaves it. -/
def faultedState : State := raised .stackUnderflow 0x00EE State.reset

theorem reset_inv : State.reset.Inv where
  mem := Memory.wf_nil _
  faultIff := by decide
  faultPc := fun _ h => nomatch h
  faultOpcode := fun _ h => nomatch h
  pcMax := by decide
  stackEven := by decide
  stackMax := by decide

theorem depth_inv (k : Fin 17) : (depth k).Inv where
  mem := Memory.wf_nil _
  faultIff := ⟨fun h => (nomatch h), fun h => (nomatch h)⟩
  faultPc := fun _ h => nomatch h
  faultOpcode := fun _ h => nomatch h
  pcMax := by show (0x200#16).toNat ≤ 0x10FE; decide
  stackEven := by
    show ∀ k (h : k < 16), ((Vector.replicate 16 (0x1000#16))[k]).toNat % 2 = 0
    decide
  stackMax := by
    show ∀ k (h : k < 16), ((Vector.replicate 16 (0x1000#16))[k]).toNat ≤ 0x1000
    decide

/-- A Faulted state meets the invariant too. -/
theorem faulted_inv : faultedState.Inv where
  mem := Memory.wf_nil _
  faultIff := by decide
  faultPc := by
    intro r h
    cases h
    rfl
  faultOpcode := by
    intro r h
    cases h
    decide
  pcMax := by decide
  stackEven := by decide
  stackMax := by decide

theorem witness_DecodeOfEncodeIsTheInstruction :
    WellFormed (.sys 0xFFF) = true ∧ WellFormed (.sys 0x0E1) = true ∧ WellFormed (.drw 0xF 0xF 0xF) = true := by decide

theorem witness_EncodeOfDecodeIsTheWord :
    decode 0x0FFF = .instr (.sys 0xFFF) ∧ decode 0x8FFE = .instr (.shlVx 0xF 0xF) ∧
    decode 0xFF65 = .instr (.ldVxMem 0xF) := by decide

/-- Each family of the UNKNOWN space at an edge, and the instruction beside it. -/
theorem witness_UnknownSpaceIsExactlyTheTables :
    decode 0x5001 = .unknown ∧ decode 0x5000 ≠ .unknown ∧ decode 0x8FF8 = .unknown ∧ decode 0x8FF7 ≠ .unknown ∧
    decode 0x9FFF = .unknown ∧ decode 0x9FF0 ≠ .unknown ∧ decode 0xE000 = .unknown ∧ decode 0xE09E ≠ .unknown ∧
    decode 0xFFFF = .unknown ∧ decode 0xFF65 ≠ .unknown := by decide

theorem witness_LiteralPatternsWinInTheZeroFamily :
    decode 0x00E0 = .instr .cls ∧ decode 0x00EE = .instr .ret ∧ decode 0x00EF = .instr (.sys 0x0EF) ∧
    (0x0FFF : Word).toNat < 0x1000 := by decide

/-- The last address an instruction may stand at. -/
theorem witness_StepRunsTheDecodedInstruction :
    ∃ s : State, ∃ i : Instr, s.run = .running ∧ s.pc.toNat % 2 = 0 ∧ s.pc.toNat ≤ 0xFFE ∧ s.pc.toNat = 0xFFE ∧
      decode (s.readByte s.pc.toNat ++ s.readByte (s.pc.toNat + 1)) = .instr i :=
  ⟨{ State.reset with pc := 0xFFE }, .sys 0, by decide⟩

theorem witness_UnknownWordIsANoOp :
    ∃ s : State, s.run = .running ∧ s.pc.toNat % 2 = 0 ∧ s.pc.toNat ≤ 0xFFE ∧
      decode (s.readByte s.pc.toNat ++ s.readByte (s.pc.toNat + 1)) = .unknown :=
  ⟨{ State.reset with pc := 0 }, by decide⟩

/-- Each clause at its edge: 0x0FFF and 0x1001 are odd, 0x1000 is the first even one out of range. -/
theorem witness_FetchFaultsAreTakenBeforeTheFetch :
    State.reset.run = .running ∧ (0x0FFF : Word).toNat % 2 = 1 ∧ (0x1001 : Word).toNat % 2 = 1 ∧
    (0x1000 : Word).toNat % 2 = 0 ∧ (0x1000 : Word).toNat > 0xFFE ∧ ¬ (0x0FFE : Word).toNat > 0xFFE := by decide

/-- A Faulted state, and in it a LoadRom that is accepted and an event other than Reset. -/
theorem witness_FaultedIsLeftOnlyByReset :
    faultedState.run = .faulted ∧ (∃ t, Event.apply (.loadRom [0x12, 0x00]) faultedState = .next t) ∧
    ∃ t, Event.step ≠ .reset ∧ Event.apply .step faultedState = .next t :=
  ⟨rfl, ⟨_, rfl⟩, _, fun h => (nomatch h), rfl⟩

/-- Both kinds of entry: by an instruction, and by the fetch. -/
theorem witness_FaultEntryIsPrecise :
    (∃ s t : State, s.run = .running ∧ step s = .next t ∧ t.run = .faulted ∧ t.fault.map (·.opcode) = some none) ∧
    (∃ s t : State, s.run = .running ∧ step s = .next t ∧ t.run = .faulted ∧
      t.fault.map (·.opcode) = some (some 0x00EE)) :=
  ⟨⟨{ State.reset with pc := 0x201 }, _, rfl, rfl, rfl, rfl⟩,
   ⟨State.reset.withFetchWord 16 0x00EE, _, rfl, rfl, rfl, rfl⟩⟩

/-- Each fault at the first place it is taken, and none at the last place it is not. -/
theorem witness_InstructionsFaultExactlyWhenListed :
    (Instr.call 0).faultIn (depth 16) = some .stackOverflow ∧ (Instr.call 0).faultIn (depth 15) = none ∧
    Instr.ret.faultIn (depth 0) = some .stackUnderflow ∧ Instr.ret.faultIn (depth 1) = none ∧
    (Instr.ldB 0).faultIn { State.reset with I := 0xFFE } = some .memOutOfRange ∧
    (Instr.ldB 0).faultIn { State.reset with I := 0xFFD } = none ∧
    (Instr.ldMemVx 0xF).faultIn { State.reset with I := 0xFF1 } = some .memOutOfRange ∧
    (Instr.ldMemVx 0xF).faultIn { State.reset with I := 0xFF0 } = none ∧
    (Instr.ldVxMem 0).faultIn { State.reset with I := 0x1000 } = some .memOutOfRange ∧
    (Instr.ldVxMem 0).faultIn { State.reset with I := 0xFFF } = none ∧
    (Instr.drw 0 0 2).faultIn { State.reset with I := 0xFFF } = some .memOutOfRange ∧
    (Instr.drw 0 0 1).faultIn { State.reset with I := 0xFFF } = none ∧
    (Instr.drw 0 0 0).faultIn { State.reset with I := 0xFFFF } = none := by decide

theorem witness_PlacedInstructionRunsNext :
    decode 0xFF65 = .instr (.ldVxMem 0xF) ∧ State.reset.run = .running ∧ State.reset.pc.toNat % 2 = 0 ∧
    State.reset.pc.toNat ≤ 0xFFE ∧ (0x1FF : Nat) ≠ State.reset.pc.toNat ∧
    (0x1FF : Nat) ≠ State.reset.pc.toNat + 1 := by decide

/-- The last byte of the font, the first byte after it, the last pixel. -/
theorem witness_ResetLeavesTheStatedValues :
    ∃ (font : Font) (n : Nat) (s : State), s = State.resetWith font n ∧ (79 : Nat) < 80 ∧ s.readByte 79 = font[79] ∧
      s.readByte 80 = 0 ∧ s.fb[31][63] = false :=
  ⟨Config.canonicalFont, 0, _, rfl, by decide, by decide, by decide, by decide⟩

theorem witness_EveryStepKeepsTheInvariant :
    (∃ s t : State, s.Inv ∧ step s = .next t ∧ t.run = .running) ∧ (∃ s t : State, s.Inv ∧ step s = .next t ∧ t.run = .faulted) :=
  ⟨⟨State.reset, _, reset_inv, rfl, rfl⟩, ⟨faultedState, _, faulted_inv, rfl, rfl⟩⟩

theorem witness_EveryEventKeepsTheInvariant :
    ∃ t, State.reset.Inv ∧ Event.apply (.loadRom [0x12, 0x00]) State.reset = .next t := ⟨_, reset_inv, rfl⟩

/-- A legal run that loads a program and steps. -/
theorem witness_ReachableStatesMeetTheInvariant :
    ∃ s, Reachable Config.canonicalFont s ∧ s.pc = 0x202 :=
  ⟨_, ⟨0, [.loadRom [0x60, 0xFF], .step], by decide, rfl⟩, rfl⟩

/-- The empty stack; one entry; the invariant; a popped 0x1000 while Running. -/
theorem witness_RetPopsTheReturnAddress :
    State.reset.sp.val = 0 ∧ 0 < (depth 1).sp.val ∧ 0 < (depth 16).sp.val ∧ (depth 1).Inv ∧
    (after .ret (depth 1)).run = .running ∧ (after .ret (depth 1)).pc = 0x1000 :=
  ⟨rfl, by decide, by decide, depth_inv 1, rfl, by decide⟩

/-- An odd target, an even one, and the jump's own address, in a Running state. -/
theorem witness_JpSetsThePc :
    (after (.jp 0xFFF) State.reset).run = .running ∧ (0xFFF : Addr).toNat % 2 = 1 ∧ (0xFFE : Addr).toNat % 2 = 0 ∧
    State.reset.pc.toNat = (0x200 : Addr).toNat := by decide

theorem witness_CallPushesTheNextAddress :
    (depth 16).sp.val = 16 ∧ (depth 15).sp.val < 16 ∧ (depth 0).sp.val < 16 ∧ (0 : Nat) ≠ (depth 15).sp.val := by decide

/-- The deepest call that still fits; something else changed before its return. -/
theorem witness_RetComesBackAfterTheCall :
    ∃ s t u : State, s.sp.val < 16 ∧ s.sp.val = 15 ∧ exec (.call 0x300) s = .next t ∧ u.sp = t.sp ∧ u.stack = t.stack ∧
      u.pc = 0x302 :=
  ⟨depth 15, _, { after (.call 0x300) (depth 15) with pc := 0x302 }, by decide, rfl, rfl, rfl, rfl, rfl⟩

/-- The clause of a destination other than VF: the lowest and the highest such register. -/
theorem witness_AluDestinationIsNotTheFlag : (0 : Nibble) ≠ 0xF ∧ (0xE : Nibble) ≠ 0xF := by decide

theorem witness_RndIsMaskedByTheImmediate : (0x7F : Byte).getLsbD 7 = false ∧ (0xFE : Byte).getLsbD 0 = false := by decide

theorem witness_LdIZeroExtendsTheAddress : (after (.ldI 0xFFF) State.reset).I = 0xFFF := by decide

theorem witness_BcdWritesThreeDigits :
    (0xFFD : Word).toNat ≤ 0xFFD ∧ (0xFFE : Word).toNat > 0xFFD ∧ (0xFFFF : Word).toNat > 0xFFD := by decide

/-- Register `x` and register 0 of the block; the last place that fits and the first that does not. -/
theorem witness_BlockStoreWritesV0ToVx :
    (0xFF0 : Word).toNat + (0xF : Nibble).toNat ≤ 0xFFF ∧ (0xFF1 : Word).toNat + (0xF : Nibble).toNat > 0xFFF ∧
    (0xF : Nibble).toNat ≤ (0xF : Nibble).toNat ∧ (0 : Nibble).toNat ≤ (0 : Nibble).toNat := by decide

theorem witness_BlockLoadReadsV0ToVx :
    (0xFFF : Word).toNat + (0 : Nibble).toNat ≤ 0xFFF ∧ (0x1000 : Word).toNat + (0 : Nibble).toNat > 0xFFF ∧
    (0xE : Nibble).toNat < (0xF : Nibble).toNat ∧ (0 : Nibble).toNat ≤ (0 : Nibble).toNat := by decide

theorem witness_BlockLoadUndoesBlockStore :
    ∃ s t u : State, s.I.toNat + (3 : Nibble).toNat ≤ 0xFFF ∧ exec (.ldMemVx 3) s = .next t ∧ u.I = s.I ∧ u.mem = t.mem ∧
      u.font = t.font ∧ u.reg 3 ≠ s.reg 3 :=
  ⟨regs [(3, 7)] { State.reset with I := 0xFFC }, _,
    { after (.ldMemVx 3) (regs [(3, 7)] { State.reset with I := 0xFFC }) with V := Vector.replicate 16 0 },
    by decide, rfl, rfl, rfl, rfl, by decide⟩

/-- No row; rows up to 0xFFF; a row above it. The first draw inverts (0, 0) and not (1, 0). -/
theorem witness_DrwXorsTheSpriteAndReportsCollision :
    (0xFFF : Word).toNat + (1 : Nibble).toNat - 1 ≤ 0xFFF ∧ (2 : Nibble) ≠ 0 ∧
    (0xFFF : Word).toNat + (2 : Nibble).toNat - 1 > 0xFFF ∧
    lit [(0, 0), (1, 0)] (after (.drw 0 1 1) (sprite [0x80] State.reset)) = [true, false] := by decide

theorem witness_DrawingTwiceRestoresTheFramebuffer :
    ∃ s t : State, (0 : Nibble) ≠ 0xF ∧ (1 : Nibble) ≠ 0xF ∧ s.I.toNat + (1 : Nibble).toNat - 1 ≤ 0xFFF ∧
      exec (.drw 0 1 1) s = .next t ∧ ∀ px py, Framebuffer.pixel s.fb px py = false :=
  ⟨sprite [0x80] State.reset, _, by decide, by decide, by decide, rfl, fun px py => by
    simp [Framebuffer.pixel, sprite, mem, State.reset, State.resetWith, blankFramebuffer]⟩

/-- No key; the lowest and the highest key. -/
theorem witness_KeyWaitTakesTheLowestKey :
    State.reset.keys = 0 ∧ (State.reset.keyUpdate 0x8000).keys ≠ 0 ∧ (State.reset.keyUpdate 0x0001).keys ≠ 0 := by decide

theorem witness_TimerTransfersAreDirect : (after (.ldDtVx 0) State.reset).run = .running := rfl

theorem witness_TimerTickClampsAtZero : State.reset.run = .running := rfl

theorem witness_OnlyKeyUpdateWritesTheLatch :
    State.reset.run = .running ∧
    ∃ t, (∀ mask, Event.timerTick ≠ .keyUpdate mask) ∧ Event.timerTick ≠ .reset ∧
      Event.apply .timerTick State.reset = .next t :=
  ⟨rfl, _, fun _ h => (nomatch h), fun h => (nomatch h), rfl⟩

/-- The longest image and the shortest that is too long; a byte of the first. -/
theorem witness_LoadRomCopiesTheImage :
    (List.replicate 3584 (0 : Byte)).length ≤ 3584 ∧ (List.replicate 3585 (0 : Byte)).length > 3584 ∧
    3583 < (List.replicate 3584 (0 : Byte)).length := by
  simp only [List.length_replicate]
  decide

theorem witness_OnlyDestinationRegistersChange :
    ∃ t, exec (.addVxVy 1 2) State.reset = .next t ∧ (Instr.addVxVy 1 2).writesReg 2 = false := ⟨_, rfl, by decide⟩

/-- One witness for each of the six flag writers. -/
theorem witness_FlagWritersLeaveZeroOrOne :
    (∃ t, exec (.addVxVy 1 2) State.reset = .next t) ∧ (∃ t, exec (.subVxVy 1 2) State.reset = .next t) ∧
    (∃ t, exec (.subnVxVy 1 2) State.reset = .next t) ∧ (∃ t, exec (.shrVx 1 2) State.reset = .next t) ∧
    (∃ t, exec (.shlVx 1 2) State.reset = .next t) ∧
    ∃ t, (Instr.drw 1 2 3).faultIn State.reset = none ∧ exec (.drw 1 2 3) State.reset = .next t :=
  ⟨⟨_, rfl⟩, ⟨_, rfl⟩, ⟨_, rfl⟩, ⟨_, rfl⟩, ⟨_, rfl⟩, _, by decide, rfl⟩

/-- The byte below a block store, and the one after it. -/
theorem witness_OnlyStoredBytesChange :
    ∃ s t, exec (.ldMemVx 0xF) s = .next t ∧ 0x3FF < s.I.toNat ∧ s.I.toNat + (Instr.ldMemVx 0xF).storedBytes ≤ 0x410 :=
  ⟨{ State.reset with I := 0x400 }, _, rfl, by decide, by decide⟩

theorem witness_OnlyThreeInstructionsWriteI :
    ∃ t, exec (.ldMemVx 0xF) State.reset = .next t ∧ (∀ nnn, Instr.ldMemVx 0xF ≠ .ldI nnn) ∧
      (∀ x, Instr.ldMemVx 0xF ≠ .ldF x) ∧ (∀ x, Instr.ldMemVx 0xF ≠ .addI x) :=
  ⟨_, rfl, fun _ h => (nomatch h), fun _ h => (nomatch h), fun _ h => (nomatch h)⟩

theorem witness_OnlyCallAndRetTouchTheStack :
    ∃ t, exec (.jp 0x300) (depth 3) = .next t ∧ (∀ nnn, Instr.jp 0x300 ≠ .call nnn) ∧ Instr.jp 0x300 ≠ .ret :=
  ⟨_, rfl, fun _ h => (nomatch h), fun h => (nomatch h)⟩

theorem witness_DevicesChangeByTheirOwnInstructions :
    ∃ t, exec (.ldI 0x300) State.reset = .next t ∧ Instr.ldI 0x300 ≠ .cls ∧ (∀ x y n, Instr.ldI 0x300 ≠ .drw x y n) ∧
      (∀ x, Instr.ldI 0x300 ≠ .ldDtVx x) ∧ (∀ x, Instr.ldI 0x300 ≠ .ldStVx x) ∧ (∀ x kk, Instr.ldI 0x300 ≠ .rnd x kk) :=
  ⟨_, rfl, fun h => (nomatch h), fun _ _ _ h => (nomatch h), fun _ h => (nomatch h), fun _ h => (nomatch h),
    fun _ _ h => (nomatch h)⟩

/-- The last byte of memory, in a memory that lists nothing. -/
theorem witness_MemoryReadsWhatWasLastWritten :
    Memory.wf State.reset.font State.reset.mem ∧ (0xFFF : Nat) < 4096 ∧ State.reset.mem = [] :=
  ⟨Memory.wf_nil _, by decide, rfl⟩

/-- The last place: an instruction at 0xFFC stores the one at 0xFFE. -/
theorem witness_StoresAreSeenByTheNextFetch :
    ∃ s t : State, WellFormed .ret = true ∧ s.run = .running ∧ s.pc.toNat % 2 = 0 ∧ s.pc.toNat ≤ 0xFFC ∧
      s.I = s.pc + 2 ∧ s.reg 0 ++ s.reg 1 = encode .ret ∧ exec (.ldMemVx 1) s = .next t ∧ s.pc.toNat = 0xFFC :=
  ⟨regs [(1, 0xEE)] { State.reset with pc := 0xFFC, I := 0xFFE }, _, by decide, rfl, by decide, by decide, by decide,
    by decide, rfl, by decide⟩

end Sys2Proof.Tests
end

section
/-! SUPPORT. The compare-and-skip instructions of 40_control_flow.md (R75 to R78): the row of the opcode map each of
their words selects, what a conditional skip does to the state, and the two statements about them. -/

namespace Sys2Proof

/-! ## Rows of the opcode map (30_encoding.md R54, R55) -/

@[simp] theorem PatNibble.fits_lit (v b : Nibble) : (PatNibble.lit v).fits b = (b == v) := rfl

@[simp] theorem PatNibble.fits_any (b : Nibble) : PatNibble.any.fits b = true := rfl

@[simp] theorem OpcodeRow.fits_mk (p1 p2 p3 p4 : PatNibble) (build : Nibble → Nibble → Nibble → Instr) (w : Word) :
    (OpcodeRow.mk p1 p2 p3 p4 build).fits w =
      (p1.fits (opField w) && p2.fits (xField w) && p3.fits (yField w) && p4.fits (nField w)) := rfl

/-- A word decodes to what the first row it fits builds from its fields. -/
theorem decode_of_firstRow {w : Word} (r : OpcodeRow) (h : opcodeMap.find? (fun r => r.fits w) = some r) :
    decode w = .instr (r.build (xField w) (yField w) (nField w)) := by
  simp only [decode, h]

/-! ## The words 3xkk, 4xkk, 5xy0 and 9xy0 -/

theorem decode_seVxKk (x : Nibble) (kk : Byte) : decode (0x3#4 ++ x ++ kk) = .instr (.seVxKk x kk) := by
  rw [decode_of_firstRow opcodeMapLow[5] (by simp [opcodeMap, opcodeMapLow])]
  simp [opcodeMapLow]

theorem decode_sneVxKk (x : Nibble) (kk : Byte) : decode (0x4#4 ++ x ++ kk) = .instr (.sneVxKk x kk) := by
  rw [decode_of_firstRow opcodeMapLow[6] (by simp [opcodeMap, opcodeMapLow])]
  simp [opcodeMapLow]

theorem decode_seVxVy (x y : Nibble) : decode (0x5#4 ++ x ++ y ++ 0#4) = .instr (.seVxVy x y) := by
  rw [decode_of_firstRow opcodeMapLow[7] (by simp [opcodeMap, opcodeMapLow])]
  simp [opcodeMapLow]

theorem decode_sneVxVy (x y : Nibble) : decode (0x9#4 ++ x ++ y ++ 0#4) = .instr (.sneVxVy x y) := by
  rw [decode_of_firstRow opcodeMapHigh[0] (by simp [opcodeMap, opcodeMapLow, opcodeMapAlu, opcodeMapHigh])]
  simp [opcodeMapHigh]

end Sys2Proof

namespace Sys2Proof.Machine

/-! ## What a conditional skip does -/

/-- Taken or not, a skip writes `pc` alone. -/
theorem State.skipIf_onlyPc (s : State) (c : Bool) : OnlyPc s (s.skipIf c) := by
  refine ⟨?_, s.skipIf_readByte c⟩
  cases c <;> rfl

/-- An instruction that skips when two bytes are equal. -/
theorem exec_skipIf_beq {i : Instr} {s : State} {a b : Byte} (h : exec i s = .next (s.skipIf (a == b))) :
    ∃ t, exec i s = .next t ∧ OnlyPc s t ∧ t.pc = if a.toNat = b.toNat then s.pc + 4 else s.pc + 2 :=
  ⟨_, h, s.skipIf_onlyPc _, by simp [BitVec.toNat_inj]⟩

/-- An instruction that skips when two bytes differ. -/
theorem exec_skipIf_bne {i : Instr} {s : State} {a b : Byte} (h : exec i s = .next (s.skipIf (a != b))) :
    ∃ t, exec i s = .next t ∧ OnlyPc s t ∧ t.pc = if a.toNat = b.toNat then s.pc + 2 else s.pc + 4 :=
  ⟨_, h, s.skipIf_onlyPc _, by simp [BitVec.toNat_inj]⟩

/-! ## The statements -/

/-- Settles O26: SE Vx, kk and SNE Vx, kk are each one conditional skip on the comparison of `V[x]` with `kk`. -/
theorem skipsComparingWithAnImmediate : Obligations.SkipsComparingWithAnImmediate := fun _ x kk =>
  ⟨decode_seVxKk x kk, decode_sneVxKk x kk, exec_skipIf_beq rfl, exec_skipIf_bne rfl⟩

/-- Settles O27: SE Vx, Vy and SNE Vx, Vy are each one conditional skip on the comparison of `V[x]` with `V[y]`. -/
theorem skipsComparingTwoRegisters : Obligations.SkipsComparingTwoRegisters := fun _ x y =>
  ⟨decode_seVxVy x y, decode_sneVxVy x y, exec_skipIf_beq rfl, exec_skipIf_bne rfl⟩

end Sys2Proof.Machine
end

section
/-! SUPPORT. The register loads, the immediate add and the bitwise operations of 41_load_alu.md (R81 to R86): the rows
of the opcode map their words select, what assigning one register does to the state, and the three statements. -/

namespace Sys2Proof

/-! ## The words 6xkk and 7xkk, and the family 8xyn -/

theorem decode_ldVxKk (x : Nibble) (kk : Byte) : decode (0x6#4 ++ x ++ kk) = .instr (.ldVxKk x kk) := by
  rw [decode_of_firstRow opcodeMapLow[8] (by simp [opcodeMap, opcodeMapLow])]
  simp [opcodeMapLow]

theorem decode_addVxKk (x : Nibble) (kk : Byte) : decode (0x7#4 ++ x ++ kk) = .instr (.addVxKk x kk) := by
  rw [decode_of_firstRow opcodeMapLow[9] (by simp [opcodeMap, opcodeMapLow])]
  simp [opcodeMapLow]

/-- The rows a word of family 0x8 fits are those of `opcodeMapAlu` with its last nibble. -/
theorem filter_fits_alu (x y n : Nibble) :
    opcodeMap.filter (fun r => r.fits (0x8#4 ++ x ++ y ++ n)) = opcodeMapAlu.filter (fun r => r.p4.fits n) := by
  simp [opcodeMap, opcodeMapLow, opcodeMapAlu, opcodeMapHigh, List.filter_cons]

/-- The last nibble of a word of family 0x8 alone selects its row (30_encoding.md R54). -/
theorem decode_alu {n : Nibble} (r : OpcodeRow) (h : opcodeMapAlu.find? (fun r => r.p4.fits n) = some r)
    (x y : Nibble) : decode (0x8#4 ++ x ++ y ++ n) = .instr (r.build x y n) := by
  rw [decode_of_firstRow r (by rw [← List.head?_filter, filter_fits_alu, List.head?_filter, h])]
  simp

end Sys2Proof

namespace Sys2Proof.Machine

/-! ## What assigning one register does -/

/-- An assignment to `V[x]` and the advance write `V[x]` and `pc` alone; VF is no exception. -/
theorem State.setReg_advance_onlyRegPc (s : State) (x : Nibble) (b : Byte) :
    OnlyRegPc x s (s.setReg x b).advance :=
  ⟨rfl, fun y hy => by rw [State.advance_reg, State.setReg_reg, if_neg hy], fun _ => rfl⟩

/-- An instruction that assigns the byte `b` to `V[x]`. -/
theorem exec_assign {i : Instr} {s : State} {x : Nibble} {b : Byte} (h : exec i s = .next (s.setReg x b).advance) :
    ∃ t, exec i s = .next t ∧ t.reg x = b ∧ t.pc = s.pc + 2 ∧ OnlyRegPc x s t :=
  ⟨_, h, s.setReg_reg_self x b, rfl, s.setReg_advance_onlyRegPc x b⟩

/-- An instruction that assigns to `V[x]` a byte made bit by bit from `a` and `c` by the operation `f`. -/
theorem exec_assign_bitwise {i : Instr} {s : State} {x : Nibble} {a b c : Byte} {f : Bool → Bool → Bool}
    (h : exec i s = .next (s.setReg x b).advance) (hb : ∀ k, b.getLsbD k = f (a.getLsbD k) (c.getLsbD k)) :
    ∃ t, exec i s = .next t ∧ t.pc = s.pc + 2 ∧ OnlyRegPc x s t ∧
      ∀ k, (t.reg x).getLsbD k = f (a.getLsbD k) (c.getLsbD k) := by
  obtain ⟨t, ht, rfl, hpc, honly⟩ := exec_assign h
  exact ⟨t, ht, hpc, honly, hb⟩

theorem addResult_toNat (a b : Byte) : (addResult a b).toNat = (a.toNat + b.toNat) % 256 :=
  BitVec.toNat_ofNat ..

/-! ## The statements -/

/-- Settles O28: LD Vx, kk and LD Vx, Vy are each one assignment to `V[x]`. -/
theorem loadsAssignOneRegister : Obligations.LoadsAssignOneRegister := fun _ x y kk =>
  ⟨decode_ldVxKk x kk, decode_alu opcodeMapAlu[0] rfl x y, exec_assign rfl, exec_assign rfl⟩

/-- Settles O29: ADD Vx, kk is one assignment of the sum modulo 256 to `V[x]`. -/
theorem addImmediateWrapsAndSetsNoFlag : Obligations.AddImmediateWrapsAndSetsNoFlag := by
  intro s x kk
  obtain ⟨t, ht, hreg, hpc, honly⟩ :=
    exec_assign (i := .addVxKk x kk) (s := s) (b := addResult (s.reg x) kk) rfl
  exact ⟨decode_addVxKk x kk, t, ht, by rw [hreg, addResult_toNat], hpc, honly⟩

/-- Settles O30: OR, AND and XOR are each one assignment to `V[x]` of a byte made bit by bit. -/
theorem bitwiseOperationsSetNoFlag : Obligations.BitwiseOperationsSetNoFlag := fun _ x y =>
  ⟨decode_alu opcodeMapAlu[1] rfl x y, decode_alu opcodeMapAlu[2] rfl x y, decode_alu opcodeMapAlu[3] rfl x y,
    exec_assign_bitwise (f := or) rfl fun _ => BitVec.getLsbD_or,
    exec_assign_bitwise (f := and) rfl fun _ => BitVec.getLsbD_and,
    exec_assign_bitwise (f := bne) rfl fun _ => BitVec.getLsbD_xor⟩

end Sys2Proof.Machine
end

section
/-! SUPPORT. CLS of 43_display.md (R111, R114): the row its word selects, what clearing the framebuffer does to the
state, and the statement. -/

namespace Sys2Proof

theorem decode_cls : decode 0x00E0 = .instr .cls :=
  decode_of_firstRow opcodeMapLow[0] rfl

end Sys2Proof

namespace Sys2Proof.Machine

theorem Framebuffer.clear_getElem (fb : Framebuffer) {x y : Nat} (hx : x < 64) (hy : y < 32) :
    (Framebuffer.clear fb)[y][x] = false := by
  rw [← Framebuffer.pixel_eq _ hx hy, Framebuffer.pixel_clear]

theorem exec_cls (s : State) :
    exec .cls s = .next ({ s with fb := Framebuffer.clear s.fb } : State).advance := rfl

/-- Settles O41: CLS replaces the framebuffer by a clear one and advances. -/
theorem clsClearsEveryPixel : Obligations.ClsClearsEveryPixel :=
  ⟨decode_cls, fun s => ⟨_, exec_cls s, fun _ _ => s.fb.clear_getElem, rfl, rfl, fun _ => rfl⟩⟩

end Sys2Proof.Machine
end

section
/-! SUPPORT. The decoder and the encoder as one another's inverse (30_encoding.md R51 to R57): dispatch as a function
of the four nibbles of a word, and the statements about decoding. -/

namespace Sys2Proof

/-! ## Dispatch on four nibbles -/

/-- `OpcodeRow.fits` on the nibbles of a word. -/
def OpcodeRow.fitsNibbles (r : OpcodeRow) (a b c d : Nibble) : Bool :=
  r.p1.fits a && r.p2.fits b && r.p3.fits c && r.p4.fits d

/-- `decode` on the nibbles of a word. -/
def decodeNibbles (a b c d : Nibble) : Decoded :=
  match opcodeMap.find? (fun r => r.fitsNibbles a b c d) with
  | some r => .instr (r.build b c d)
  | none => .unknown

theorem decode_eq_decodeNibbles (w : Word) :
    decode w = decodeNibbles (opField w) (xField w) (yField w) (nField w) := rfl

theorem decode_nibbles (a b c d : Nibble) : decode (a ++ b ++ c ++ d) = decodeNibbles a b c d := by
  rw [decode_eq_decodeNibbles, opField_nibbles, xField_nibbles, yField_nibbles, nField_nibbles]

/-! ## The formats XKK and NNN as four nibbles (30_encoding.md R52) -/

theorem append_kkOf (a b c d : Nibble) : a ++ b ++ kkOf c d = a ++ b ++ c ++ d := by
  apply BitVec.eq_of_toNat_eq
  refine (xkk_toNat ..).trans (Eq.trans ?_ (nibbles_toNat ..).symm)
  rw [kkOf_toNat]
  omega

theorem append_nnnOf (a b c d : Nibble) : a ++ nnnOf b c d = a ++ b ++ c ++ d := by
  apply BitVec.eq_of_toNat_eq
  refine (nnn_toNat ..).trans (Eq.trans ?_ (nibbles_toNat ..).symm)
  rw [nnnOf_toNat]
  omega

theorem exists_kkOf (kk : Byte) : ∃ c d, kk = kkOf c d := ⟨_, _, (kkOf_xkk 0 0 kk).symm⟩

theorem exists_nnnOf (nnn : Addr) : ∃ b c d, nnn = nnnOf b c d := ⟨_, _, _, (nnnOf_nnn 0 nnn).symm⟩

/-- A word of the format XKK decodes as its four nibbles do. -/
theorem decode_xkk {a b : Nibble} {f : Byte → Instr} (h : ∀ c d, decodeNibbles a b c d = .instr (f (kkOf c d)))
    (kk : Byte) : decode (a ++ b ++ kk) = .instr (f kk) := by
  obtain ⟨c, d, rfl⟩ := exists_kkOf kk
  rw [append_kkOf, decode_nibbles, h]

/-- A word of the format NNN decodes as its four nibbles do. -/
theorem decode_nnn {a : Nibble} {f : Addr → Instr} (h : ∀ b c d, decodeNibbles a b c d = .instr (f (nnnOf b c d)))
    (nnn : Addr) : decode (a ++ nnn) = .instr (f nnn) := by
  obtain ⟨b, c, d, rfl⟩ := exists_nnnOf nnn
  rw [append_nnnOf, decode_nibbles, h]

/-- A word of the format X, whose low byte is a literal, decodes as its four nibbles do. -/
theorem decode_x {a b c d : Nibble} {i : Instr} (h : decodeNibbles a b c d = .instr i) :
    decode (a ++ b ++ kkOf c d) = .instr i := by
  rw [append_kkOf, decode_nibbles, h]

/-! ## Decoding what was encoded -/

/-- The three rows of family 0x0, the literals first (30_encoding.md R54). -/
theorem decodeNibbles_zero (b c d : Nibble) :
    decodeNibbles 0#4 b c d =
      if b = 0 ∧ c = 0xE ∧ d = 0 then .instr .cls
      else if b = 0 ∧ c = 0xE ∧ d = 0xE then .instr .ret
      else .instr (.sys (nnnOf b c d)) := by
  by_cases h0 : b = 0 ∧ c = 0xE ∧ d = 0
  · obtain ⟨rfl, rfl, rfl⟩ := h0
    rfl
  · by_cases hE : b = 0 ∧ c = 0xE ∧ d = 0xE
    · obtain ⟨rfl, rfl, rfl⟩ := hE
      rfl
    · have hcls : (b == 0#4 && c == 14#4 && d == 0#4) = false := by simpa [and_assoc] using h0
      have hret : (b == 0#4 && c == 14#4 && d == 14#4) = false := by simpa [and_assoc] using hE
      simp only [if_neg h0, if_neg hE]
      simp [decodeNibbles, OpcodeRow.fitsNibbles, opcodeMap, opcodeMapLow, hcls, hret]

theorem decode_sys {nnn : Addr} (h : WellFormed (.sys nnn) = true) :
    decode (encode (.sys nnn)) = .instr (.sys nnn) := by
  obtain ⟨b, c, d, rfl⟩ := exists_nnnOf nnn
  have h0 : ¬ (b = 0 ∧ c = 0xE ∧ d = 0) := by rintro ⟨rfl, rfl, rfl⟩; exact absurd h (by decide)
  have hE : ¬ (b = 0 ∧ c = 0xE ∧ d = 0xE) := by rintro ⟨rfl, rfl, rfl⟩; exact absurd h (by decide)
  rw [encode, append_nnnOf, decode_nibbles, decodeNibbles_zero, if_neg h0, if_neg hE]

theorem decode_encode : ∀ i : Instr, WellFormed i = true → decode (encode i) = .instr i
  | .sys _, h => decode_sys h
  | .cls, _ => decode_cls
  | .ret, _ => decode_nibbles 0x0 0x0 0xE 0xE
  | .jp nnn, _ => decode_nnn (fun _ _ _ => rfl) nnn
  | .call nnn, _ => decode_nnn (fun _ _ _ => rfl) nnn
  | .seVxKk x kk, _ => decode_seVxKk x kk
  | .sneVxKk x kk, _ => decode_sneVxKk x kk
  | .seVxVy x y, _ => decode_seVxVy x y
  | .ldVxKk x kk, _ => decode_ldVxKk x kk
  | .addVxKk x kk, _ => decode_addVxKk x kk
  | .ldVxVy x y, _ => decode_alu opcodeMapAlu[0] rfl x y
  | .orVxVy x y, _ => decode_alu opcodeMapAlu[1] rfl x y
  | .andVxVy x y, _ => decode_alu opcodeMapAlu[2] rfl x y
  | .xorVxVy x y, _ => decode_alu opcodeMapAlu[3] rfl x y
  | .addVxVy x y, _ => decode_alu opcodeMapAlu[4] rfl x y
  | .subVxVy x y, _ => decode_alu opcodeMapAlu[5] rfl x y
  | .shrVx x y, _ => decode_alu opcodeMapAlu[6] rfl x y
  | .subnVxVy x y, _ => decode_alu opcodeMapAlu[7] rfl x y
  | .shlVx x y, _ => decode_alu opcodeMapAlu[8] rfl x y
  | .sneVxVy x y, _ => decode_sneVxVy x y
  | .ldI nnn, _ => decode_nnn (fun _ _ _ => rfl) nnn
  | .jpV0 nnn, _ => decode_nnn (fun _ _ _ => rfl) nnn
  | .rnd _ kk, _ => decode_xkk (fun _ _ => rfl) kk
  | .drw x y n, _ => decode_nibbles 0xD x y n
  | .skp x, _ => decode_x (a := 0xE) (b := x) (c := 0x9) (d := 0xE) rfl
  | .sknp x, _ => decode_x (a := 0xE) (b := x) (c := 0xA) (d := 0x1) rfl
  | .ldVxDt x, _ => decode_x (a := 0xF) (b := x) (c := 0x0) (d := 0x7) rfl
  | .ldVxK x, _ => decode_x (a := 0xF) (b := x) (c := 0x0) (d := 0xA) rfl
  | .ldDtVx x, _ => decode_x (a := 0xF) (b := x) (c := 0x1) (d := 0x5) rfl
  | .ldStVx x, _ => decode_x (a := 0xF) (b := x) (c := 0x1) (d := 0x8) rfl
  | .addI x, _ => decode_x (a := 0xF) (b := x) (c := 0x1) (d := 0xE) rfl
  | .ldF x, _ => decode_x (a := 0xF) (b := x) (c := 0x2) (d := 0x9) rfl
  | .ldB x, _ => decode_x (a := 0xF) (b := x) (c := 0x3) (d := 0x3) rfl
  | .ldMemVx x, _ => decode_x (a := 0xF) (b := x) (c := 0x5) (d := 0x5) rfl
  | .ldVxMem x, _ => decode_x (a := 0xF) (b := x) (c := 0x6) (d := 0x5) rfl

/-- A word and its two bytes decode alike, and no byte is left over (20_memory.md R34). -/
theorem decodeBytes_bytes {w : Word} {i : Instr} (h : decode w = .instr i) :
    decodeBytes [highByte w, lowByte w] = .ok (i, []) := by
  simp only [decodeBytes, wordOfBytes_bytes, h]

/-- Settles O1: each constructor's word selects its own row of the opcode map, and its two bytes make that word. -/
theorem decodeOfEncodeIsTheInstruction : Obligations.DecodeOfEncodeIsTheInstruction := fun i h =>
  ⟨decode_encode i h, decodeBytes_bytes (decode_encode i h)⟩

/-! ## Encoding what was decoded -/

/-- Nibbles that fit the row are the nibbles of the word of the instruction it builds. -/
def OpcodeRow.BuildsItsWord (r : OpcodeRow) : Prop :=
  ∀ a b c d : Nibble, r.fitsNibbles a b c d = true → encode (r.build b c d) = a ++ b ++ c ++ d

theorem buildsItsWord_nnn {v : Nibble} {f : Addr → Instr} (h : ∀ nnn, encode (f nnn) = v ++ nnn) :
    OpcodeRow.BuildsItsWord ⟨.lit v, .any, .any, .any, fun x y n => f (nnnOf x y n)⟩ := by
  intro a b c d hf
  obtain rfl : a = v := by simpa [OpcodeRow.fitsNibbles] using hf
  rw [h, append_nnnOf]

theorem buildsItsWord_xkk {v : Nibble} {f : Nibble → Byte → Instr} (h : ∀ x kk, encode (f x kk) = v ++ x ++ kk) :
    OpcodeRow.BuildsItsWord ⟨.lit v, .any, .any, .any, fun x y n => f x (kkOf y n)⟩ := by
  intro a b c d hf
  obtain rfl : a = v := by simpa [OpcodeRow.fitsNibbles] using hf
  rw [h, append_kkOf]

theorem buildsItsWord_xyn {v : Nibble} {f : Nibble → Nibble → Nibble → Instr}
    (h : ∀ x y n, encode (f x y n) = v ++ x ++ y ++ n) : OpcodeRow.BuildsItsWord ⟨.lit v, .any, .any, .any, f⟩ := by
  intro a b c d hf
  obtain rfl : a = v := by simpa [OpcodeRow.fitsNibbles] using hf
  exact h b c d

theorem buildsItsWord_xy {v u : Nibble} {f : Nibble → Nibble → Instr}
    (h : ∀ x y, encode (f x y) = v ++ x ++ y ++ u) :
    OpcodeRow.BuildsItsWord ⟨.lit v, .any, .any, .lit u, fun x y _ => f x y⟩ := by
  intro a b c d hf
  obtain ⟨rfl, rfl⟩ : a = v ∧ d = u := by simpa [OpcodeRow.fitsNibbles] using hf
  exact h b c

theorem buildsItsWord_x {v t u : Nibble} {f : Nibble → Instr} (h : ∀ x, encode (f x) = v ++ x ++ kkOf t u) :
    OpcodeRow.BuildsItsWord ⟨.lit v, .any, .lit t, .lit u, fun x _ _ => f x⟩ := by
  intro a b c d hf
  obtain ⟨⟨rfl, rfl⟩, rfl⟩ : (a = v ∧ c = t) ∧ d = u := by simpa [OpcodeRow.fitsNibbles] using hf
  rw [h, append_kkOf]

theorem buildsItsWord_literal {v s t u : Nibble} {i : Instr} (h : encode i = v ++ s ++ t ++ u) :
    OpcodeRow.BuildsItsWord ⟨.lit v, .lit s, .lit t, .lit u, fun _ _ _ => i⟩ := by
  intro a b c d hf
  obtain ⟨⟨⟨rfl, rfl⟩, rfl⟩, rfl⟩ : ((a = v ∧ b = s) ∧ c = t) ∧ d = u := by
    simpa [OpcodeRow.fitsNibbles] using hf
  exact h

theorem opcodeMapLow_buildsItsWord : ∀ r ∈ opcodeMapLow, r.BuildsItsWord := by
  simp only [opcodeMapLow, List.forall_mem_cons]
  refine ⟨buildsItsWord_literal rfl, buildsItsWord_literal rfl, ?sys, ?jp, ?call, ?seKk, ?sneKk,
    buildsItsWord_xy fun _ _ => rfl, ?ld, ?add, fun _ h => nomatch h⟩
  case sys | jp | call => exact buildsItsWord_nnn fun _ => rfl
  case seKk | sneKk | ld | add => exact buildsItsWord_xkk fun _ _ => rfl

theorem opcodeMapAlu_buildsItsWord : ∀ r ∈ opcodeMapAlu, r.BuildsItsWord := by
  simp only [opcodeMapAlu, List.forall_mem_cons]
  refine ⟨?_, ?_, ?_, ?_, ?_, ?_, ?_, ?_, ?_, fun _ h => nomatch h⟩
  all_goals exact buildsItsWord_xy fun _ _ => rfl

theorem opcodeMapHigh_buildsItsWord : ∀ r ∈ opcodeMapHigh, r.BuildsItsWord := by
  simp only [opcodeMapHigh, List.forall_mem_cons]
  refine ⟨buildsItsWord_xy fun _ _ => rfl, buildsItsWord_nnn fun _ => rfl, buildsItsWord_nnn fun _ => rfl,
    buildsItsWord_xkk fun _ _ => rfl, buildsItsWord_xyn fun _ _ _ => rfl,
    ?_, ?_, ?_, ?_, ?_, ?_, ?_, ?_, ?_, ?_, ?_, fun _ h => nomatch h⟩
  all_goals exact buildsItsWord_x fun _ => rfl

theorem opcodeMap_buildsItsWord : ∀ r ∈ opcodeMap, r.BuildsItsWord := by
  simp only [opcodeMap, List.forall_mem_append]
  exact ⟨⟨opcodeMapLow_buildsItsWord, opcodeMapAlu_buildsItsWord⟩, opcodeMapHigh_buildsItsWord⟩

theorem encode_of_decode {w : Word} {i : Instr} (h : decode w = .instr i) : encode i = w := by
  rw [decode] at h
  split at h
  · next r hr =>
    cases h
    have hfits : r.fitsNibbles (opField w) (xField w) (yField w) (nField w) = true :=
      List.find?_some (p := fun r : OpcodeRow => r.fits w) hr
    rw [opcodeMap_buildsItsWord r (List.mem_of_find?_eq_some hr) _ _ _ _ hfits, word_of_fields]
  · cases h

/-- An instruction its own word decodes to is well-formed: the words of `SYS 0x0E0` and `SYS 0x0EE` decode to CLS
and RET (30_encoding.md R54). -/
theorem wellFormed_of_decode_encode {i : Instr} (h : decode (encode i) = .instr i) : WellFormed i = true := by
  cases i with
  | sys nnn =>
    have h0 : nnn ≠ 0x0E0#12 := by rintro rfl; exact absurd h (by decide)
    have hE : nnn ≠ 0x0EE#12 := by rintro rfl; exact absurd h (by decide)
    simp [WellFormed, h0, hE]
  | _ => rfl

/-- Settles O2: every row of the opcode map builds the instruction whose word fits it. -/
theorem encodeOfDecodeIsTheWord : Obligations.EncodeOfDecodeIsTheWord := fun _ _ h =>
  ⟨encode_of_decode h, wellFormed_of_decode_encode (by rw [encode_of_decode h, h])⟩

/-! ## The words of the tables -/

/-- Settles O3: each word selects its row, or none. -/
theorem writtenOutWordsDecode : Obligations.WrittenOutWordsDecode := by
  unfold Obligations.WrittenOutWordsDecode
  decide

theorem decodeNibbles_eq_unknown_iff (a b c d : Nibble) :
    decodeNibbles a b c d = .unknown ↔ ∀ r ∈ opcodeMap, ¬ r.fitsNibbles a b c d = true := by
  rw [decodeNibbles, ← List.find?_eq_none]
  split
  · next h => simp [h]
  · next h => simp [h]

/-- The two nibbles of a byte are not those of `k`. -/
theorem nibbles_ne_iff (c d : Nibble) (k : Nat) :
    (c.toNat = k / 16 → ¬ d.toNat = k % 16) ↔ ¬ c.toNat * 16 + d.toNat = k := by
  omega

/-- The table of the unknown space (30_encoding.md R56), family by family. -/
theorem decodeNibbles_unknown_table (a b c d : Nibble) : decodeNibbles a b c d = .unknown ↔
    ((a.toNat = 0x5 ∧ d.toNat ≠ 0) ∨
     (a.toNat = 0x8 ∧ d.toNat ∈ [0x8, 0x9, 0xA, 0xB, 0xC, 0xD, 0xF]) ∨
     (a.toNat = 0x9 ∧ d.toNat ≠ 0) ∨
     (a.toNat = 0xE ∧ c.toNat * 16 + d.toNat ∉ [0x9E, 0xA1]) ∨
     (a.toNat = 0xF ∧
       c.toNat * 16 + d.toNat ∉ [0x07, 0x0A, 0x15, 0x18, 0x1E, 0x29, 0x33, 0x55, 0x65])) := by
  have hd := d.isLt
  rw [decodeNibbles_eq_unknown_iff]
  simp only [opcodeMap, opcodeMapLow, opcodeMapAlu, opcodeMapHigh, List.forall_mem_append, List.forall_mem_cons,
    OpcodeRow.fitsNibbles, PatNibble.fits_lit, PatNibble.fits_any]
  obtain ⟨⟨a, ha⟩⟩ := a
  interval_cases a <;> simp [← BitVec.toNat_inj, ← nibbles_ne_iff]
  -- family 0x8: nine low nibbles have a row, the other seven have none
  omega

/-- Settles O4: the table of the unknown space, read off the fields of the word. -/
theorem unknownSpaceIsExactlyTheTables : Obligations.UnknownSpaceIsExactlyTheTables := by
  intro w
  have hkk : w.toNat / 16 % 16 * 16 + w.toNat % 16 = w.toNat % 256 := by omega
  rw [decode_eq_decodeNibbles, decodeNibbles_unknown_table, opField_toNat, yField_toNat, nField_toNat, hkk]

/-- Settles O5: below 0x1000 the first nibble is 0, and the three rows of that family stand literals first. -/
theorem literalPatternsWinInTheZeroFamily : Obligations.LiteralPatternsWinInTheZeroFamily := by
  intro w hw
  have hop : opField w = 0#4 := BitVec.eq_of_toNat_eq (by rw [opField_toNat]; exact Nat.div_eq_of_lt hw)
  have hnnn : nnnOf (xField w) (yField w) (nField w) = BitVec.ofNat 12 w.toNat := by
    apply BitVec.eq_of_toNat_eq
    rw [nnnOf_toNat, xField_toNat, yField_toNat, nField_toNat, BitVec.toNat_ofNat]
    omega
  have hcls : (xField w = 0 ∧ yField w = 0xE ∧ nField w = 0) ↔ w.toNat = 0x0E0 := by
    simp only [← BitVec.toNat_inj, xField_toNat, yField_toNat, nField_toNat, BitVec.ofNat_eq_ofNat,
      BitVec.toNat_ofNat]
    omega
  have hret : (xField w = 0 ∧ yField w = 0xE ∧ nField w = 0xE) ↔ w.toNat = 0x0EE := by
    simp only [← BitVec.toNat_inj, xField_toNat, yField_toNat, nField_toNat, BitVec.ofNat_eq_ofNat,
      BitVec.toNat_ofNat]
    omega
  simp only [decode_eq_decodeNibbles, hop, decodeNibbles_zero, hcls, hret, hnnn]

end Sys2Proof
end

section
/-! SUPPORT. What an instruction can do, once for all 35 (10_state.md R25): it takes its listed fault, or it completes
by one of fifteen updates of State. The frames over all instructions are read off the updates. -/

namespace Sys2Proof.Machine

/-! ## The updates of a completing instruction -/

/-- The states in which instruction `i` may complete from `s`: the update, with what its operands satisfy. -/
inductive Completes : Instr → State → State → Prop
  /-- only `pc` is written; from a fetchable address the target is at most 0x10FE (10_state.md R13) -/
  | jump {i s} (w : Word) (hw : s.pc.toNat ≤ 0xFFE → w.toNat ≤ 0x10FE) : Completes i s (s.jumpTo w)
  | call {nnn s} (h : s.sp.val < 16) : Completes (.call nnn) s
      { s with stack := s.stack.set s.sp.val (s.pc + 2), sp := ⟨s.sp.val + 1, by omega⟩, pc := addrOperand nnn }
  | ret {s} (h : 0 < s.sp.val) : Completes .ret s
      { s with
        sp := ⟨s.sp.val - 1, by have := s.sp.isLt; omega⟩
        pc := s.stack[s.sp.val - 1]'(by have := s.sp.isLt; omega) }
  | reg {i s x b} (h : ∀ r, i.writesReg r = (r == x)) : Completes i s (s.setReg x b).advance
  | result {i s x b f} (h : ∀ r, i.writesReg r = (r == x || r == 0xF)) :
      Completes i s (s.writeResultAndFlag x b f)
  | rnd {x kk s} : Completes (.rnd x kk) s (s.draw.2.setReg x (s.draw.1 &&& kk)).advance
  | ldI {nnn s} : Completes (.ldI nnn) s ({ s with I := addrOperand nnn } : State).advance
  | ldF {x s} : Completes (.ldF x) s ({ s with I := s.glyphAddress x } : State).advance
  | addI {x s} : Completes (.addI x) s ({ s with I := s.I + s.regWide x } : State).advance
  | ldDtVx {x s} : Completes (.ldDtVx x) s ({ s with dt := s.reg x } : State).advance
  | ldStVx {x s} : Completes (.ldStVx x) s ({ s with st := s.reg x } : State).advance
  | cls {s} : Completes .cls s ({ s with fb := Framebuffer.clear s.fb } : State).advance
  | drw {x y n s fb f} : Completes (.drw x y n) s (({ s with fb := fb } : State).setFlag f).advance
  | store {i s bs} (hlen : bs.length = i.storedBytes) (h : s.I.toNat + bs.length ≤ 4096) :
      Completes i s (s.writeBytes s.I.toNat bs).advance
  | load {x s bs} (hlen : bs.length = x.toNat + 1) : Completes (.ldVxMem x) s (s.setRegBlock bs).advance

theorem addrOperand_toNat (nnn : Addr) : (addrOperand nnn).toNat = nnn.toNat :=
  BitVec.toNat_setWidth_of_le (by decide)

theorem State.regWide_toNat (s : State) (x : Nibble) : (s.regWide x).toNat = (s.reg x).toNat :=
  BitVec.toNat_setWidth_of_le (by decide)

theorem State.jumpV0Target_toNat (s : State) (nnn : Addr) :
    (s.jumpV0Target nnn).toNat = nnn.toNat + (s.reg 0).toNat := by
  have := nnn.isLt
  have := (s.reg 0).isLt
  rw [State.jumpV0Target, BitVec.toNat_add, addrOperand_toNat, State.regWide_toNat]
  omega

/-- An instruction that only advances. -/
theorem Completes.advance (i : Instr) (s : State) : Completes i s s.advance :=
  .jump _ fun _ => by bv_omega

/-- An instruction that skips or advances. -/
theorem Completes.skipIf (i : Instr) (s : State) : ∀ c : Bool, Completes i s (s.skipIf c)
  | true => .jump _ fun _ => by bv_omega
  | false => .advance i s

/-- All that an instruction can do: take the fault listed for it, or complete where none is. -/
theorem exec_cases (i : Instr) (s : State) :
    (∃ f, i.faultIn s = some f ∧ exec i s = .next (raised f (encode i) s)) ∨
    (i.faultIn s = none ∧ ∃ t, exec i s = .next t ∧ Completes i s t) := by
  cases i with
  | sys nnn => exact .inr ⟨rfl, _, rfl, .advance _ s⟩
  | cls => exact .inr ⟨rfl, _, rfl, .cls⟩
  | ret =>
    rcases exec_ret_cases s with ⟨h, e⟩ | ⟨h, e⟩
    · exact .inl ⟨_, if_pos h, e⟩
    · exact .inr ⟨if_neg (by omega), _, e, .ret h⟩
  | jp nnn =>
    have := nnn.isLt
    exact .inr ⟨rfl, _, rfl, .jump _ fun _ => by rw [addrOperand_toNat]; omega⟩
  | call nnn =>
    rcases exec_call_cases nnn s with ⟨h, e⟩ | ⟨h, e⟩
    · exact .inl ⟨_, if_pos h, e⟩
    · exact .inr ⟨if_neg (by omega), _, e, .call h⟩
  | seVxKk | sneVxKk | seVxVy | sneVxVy | skp | sknp => exact .inr ⟨rfl, _, rfl, .skipIf _ s _⟩
  | ldVxKk | addVxKk | ldVxVy | orVxVy | andVxVy | xorVxVy | ldVxDt =>
    exact .inr ⟨rfl, _, rfl, .reg fun _ => rfl⟩
  | addVxVy | subVxVy | shrVx | subnVxVy | shlVx => exact .inr ⟨rfl, _, rfl, .result fun _ => rfl⟩
  | ldI => exact .inr ⟨rfl, _, rfl, .ldI⟩
  | jpV0 nnn =>
    have := nnn.isLt
    have := (s.reg 0).isLt
    exact .inr ⟨rfl, _, rfl, .jump _ fun _ => by rw [State.jumpV0Target_toNat]; omega⟩
  | rnd => exact .inr ⟨rfl, _, rfl, .rnd⟩
  | drw x y n =>
    rcases exec_drw_cases x y n s with ⟨h₀, h, e⟩ | ⟨h, p, -, e⟩
    · exact .inl ⟨_, if_pos ⟨h₀, h⟩, e⟩
    · exact .inr ⟨if_neg (by omega), _, e, .drw⟩
  | ldVxK x =>
    refine .inr ⟨rfl, ?_⟩
    by_cases h : s.anyPressed = true
    · exact ⟨_, if_pos h, .reg fun _ => rfl⟩
    · exact ⟨_, if_neg h, .jump s.pc fun _ => by omega⟩
  | ldDtVx => exact .inr ⟨rfl, _, rfl, .ldDtVx⟩
  | ldStVx => exact .inr ⟨rfl, _, rfl, .ldStVx⟩
  | addI => exact .inr ⟨rfl, _, rfl, .addI⟩
  | ldF => exact .inr ⟨rfl, _, rfl, .ldF⟩
  | ldB x =>
    rcases exec_ldB_cases x s with ⟨h, e⟩ | ⟨h, e⟩
    · exact .inl ⟨_, if_pos h, e⟩
    · exact .inr ⟨if_neg (by omega), _, e, .store rfl (by rw [State.bcdDigits_length]; omega)⟩
  | ldMemVx x =>
    rcases exec_ldMemVx_cases x s with ⟨h, e⟩ | ⟨h, e⟩
    · exact .inl ⟨_, if_pos h, e⟩
    · exact .inr ⟨if_neg (by omega), _, e, .store (s.regBlock_length x) (by rw [State.regBlock_length]; omega)⟩
  | ldVxMem x =>
    rcases exec_ldVxMem_cases x s with ⟨h, e⟩ | ⟨h, e⟩
    · exact .inl ⟨_, if_pos h, e⟩
    · exact .inr ⟨if_neg (by omega), _, e, .load (s.readBytes_length ..)⟩

/-- `exec_cases` for a given next state. -/
theorem exec_next {i : Instr} {s t : State} (h : exec i s = .next t) :
    (∃ f, i.faultIn s = some f ∧ t = raised f (encode i) s) ∨ (i.faultIn s = none ∧ Completes i s t) := by
  rcases exec_cases i s with ⟨f, hf, e⟩ | ⟨hf, t', e, hc⟩
  · exact .inl ⟨f, hf, (Host.Outcome.next.inj (e.symm.trans h)).symm⟩
  · exact .inr ⟨hf, Host.Outcome.next.inj (e.symm.trans h) ▸ hc⟩

/-! ## What every completing instruction leaves unchanged -/

section
variable {i : Instr} {s t : State}

theorem Completes.run_eq (h : Completes i s t) : t.run = s.run := by
  cases h <;> simp [State.setRegBlock]

theorem Completes.fault_eq (h : Completes i s t) : t.fault = s.fault := by
  cases h <;> simp [State.setRegBlock]

theorem Completes.keys_eq (h : Completes i s t) : t.keys = s.keys := by
  cases h <;> simp [State.setRegBlock]

theorem Completes.font_eq (h : Completes i s t) : t.font = s.font := by
  cases h <;> simp [State.setRegBlock]

/-- Memory is as it was, or holds the instruction's stored bytes from `I` on. -/
theorem Completes.mem_cases (h : Completes i s t) :
    t.mem = s.mem ∨ ∃ bs : List Byte, bs.length = i.storedBytes ∧ s.I.toNat + bs.length ≤ 4096 ∧
      t.mem = (s.writeBytes s.I.toNat bs).mem := by
  cases h with
  | store hlen h => exact .inr ⟨_, hlen, h, rfl⟩
  | _ => left; simp [State.setRegBlock]

/-- The stack entries are as they were, or hold one more return address. -/
theorem Completes.stack_cases (h : Completes i s t) :
    t.stack = s.stack ∨ ∃ hsp : s.sp.val < 16, t.stack = s.stack.set s.sp.val (s.pc + 2) := by
  cases h with
  | call h => exact .inr ⟨h, rfl⟩
  | _ => left; simp [State.setRegBlock]

theorem Completes.pc_le (h : Completes i s t) (hpc : s.pc.toNat ≤ 0xFFE)
    (hstack : ∀ k (hk : k < 16), s.stack[k].toNat ≤ 0x1000) : t.pc.toNat ≤ 0x10FE := by
  cases h with
  | jump w hw => exact hw hpc
  | @call nnn _ _ =>
    have := nnn.isLt
    rw [addrOperand_toNat]
    omega
  | ret _ => exact (hstack _ (by have := s.sp.isLt; omega)).trans (by decide)
  | _ =>
    simp only [State.advance_pc, State.setReg_pc, State.setFlag_pc, State.writeResultAndFlag_pc, State.draw_snd_pc,
      State.writeBytes_pc, State.setRegBlock, State.setRegsFrom_pc]
    bv_omega

theorem State.readByte_congr (hmem : t.mem = s.mem) (hfont : t.font = s.font) (a : Nat) :
    t.readByte a = s.readByte a := by
  simp only [State.readByte, hmem, hfont]

end

/-! ## The frames -/

theorem State.setRegBlock_reg_of_length_le (s : State) {bs : List Byte} {r : Nibble} (hlen : bs.length ≤ r.toNat) :
    (s.setRegBlock bs).reg r = s.reg r := by
  rw [State.setRegBlock, State.setRegsFrom_reg _ _ _ _ (by have := r.isLt; omega), dif_neg (by omega)]

theorem flagByte_cases (f : Bool) : flagByte f = 0 ∨ flagByte f = 1 := by
  cases f
  · exact .inl rfl
  · exact .inr rfl

/-- Settles O11: the two cases of `exec_cases`, of which a completing one leaves `run` and `fault`. -/
theorem instructionsFaultExactlyWhenListed : Obligations.InstructionsFaultExactlyWhenListed := by
  intro i s
  rcases exec_cases i s with ⟨f, hf, e⟩ | ⟨hf, t, e, hc⟩
  · exact ⟨fun g hg => Option.some.inj (hf.symm.trans hg) ▸ e, fun hn => absurd (hf.symm.trans hn) nofun⟩
  · exact ⟨fun g hg => absurd (hf.symm.trans hg) nofun, fun _ => ⟨t, e, hc.run_eq, hc.fault_eq⟩⟩

/-- Settles O52: each update writes the registers listed, if any. -/
theorem onlyDestinationRegistersChange : Obligations.OnlyDestinationRegistersChange := by
  intro i s t r h hr
  rcases exec_next h with ⟨f, -, rfl⟩ | ⟨-, hc⟩
  · rfl
  cases hc with
  | reg hw =>
    have hx := (hw r).symm.trans hr
    rw [State.advance_reg, State.setReg_reg, if_neg (ne_of_beq_false hx)]
  | result hw =>
    have hx := (hw r).symm.trans hr
    rw [Bool.or_eq_false_iff] at hx
    rw [State.writeResultAndFlag_reg, if_neg (ne_of_beq_false hx.2), if_neg (ne_of_beq_false hx.1)]
  | rnd => rw [State.advance_reg, State.setReg_reg, if_neg (ne_of_beq_false hr), State.draw_snd_reg]
  | drw =>
    rw [State.advance_reg, State.setFlag_reg, if_neg (ne_of_beq_false hr)]
    rfl
  | @load x _ _ hlen =>
    have hx : ¬ r.toNat ≤ x.toNat := of_decide_eq_false hr
    rw [State.advance_reg, State.setRegBlock_reg_of_length_le _ (by omega)]
  | store => simp
  | _ => rfl

/-- Settles O53: each of the six writes the flag last, as a byte of one bit. -/
theorem flagWritersLeaveZeroOrOne : Obligations.FlagWritersLeaveZeroOrOne := by
  intro s t x y n h
  suffices hf : ∃ f, t.reg 0xF = flagByte f by
    obtain ⟨f, hf⟩ := hf
    exact hf ▸ flagByte_cases f
  have alu {r : Byte} {f : Bool} (e : s.writeResultAndFlag x r f = t) : ∃ f, t.reg 0xF = flagByte f :=
    ⟨f, by rw [← e, State.writeResultAndFlag_reg, if_pos rfl]⟩
  rcases h with h | h | h | h | h | ⟨hn, h⟩
  iterate 5 exact alu (Host.Outcome.next.inj h)
  rcases exec_drw_cases x y n s with ⟨h₀, hI, -⟩ | ⟨-, p, -, e⟩
  · exact absurd ((if_pos ⟨h₀, hI⟩ : (Instr.drw x y n).faultIn s = _).symm.trans hn) nofun
  · rw [← Host.Outcome.next.inj (e.symm.trans h)]
    exact ⟨p.2, by rw [State.advance_reg, State.setFlag_reg, if_pos rfl]⟩

/-- Settles O54: only a store changes memory, and only at the bytes it stores. -/
theorem onlyStoredBytesChange : Obligations.OnlyStoredBytesChange := by
  intro i s t a h ha
  rcases exec_next h with ⟨f, -, rfl⟩ | ⟨-, hc⟩
  · rfl
  rcases hc.mem_cases with hmem | ⟨bs, hlen, -, hmem⟩
  · exact State.readByte_congr hmem hc.font_eq a
  · rw [State.readByte_congr hmem (by rw [hc.font_eq, State.writeBytes_font]), State.writeBytes_readByte,
      dif_neg (by omega)]

/-- Settles O55: the three updates that write `I` are those of LD I, LD F and ADD I. -/
theorem onlyThreeInstructionsWriteI : Obligations.OnlyThreeInstructionsWriteI := by
  intro i s t h hldI hldF haddI
  rcases exec_next h with ⟨f, -, rfl⟩ | ⟨-, hc⟩
  · rfl
  cases hc with
  | ldI => exact absurd rfl (hldI _)
  | ldF => exact absurd rfl (hldF _)
  | addI => exact absurd rfl (haddI _)
  | _ => simp [State.setRegBlock]

/-- Settles O56: the update that writes the entries is CALL's, and those that write the depth CALL's and RET's. -/
theorem onlyCallAndRetTouchTheStack : Obligations.OnlyCallAndRetTouchTheStack := by
  intro i s t h hcall
  rcases exec_next h with ⟨f, -, rfl⟩ | ⟨-, hc⟩
  · exact ⟨rfl, fun _ => rfl⟩
  cases hc with
  | call => exact absurd rfl (hcall _)
  | ret => exact ⟨rfl, fun h => absurd rfl h⟩
  | _ => simp [State.setRegBlock]

/-- Settles O57: pixels, timers and draws are each written by the updates of their own instructions. -/
theorem devicesChangeByTheirOwnInstructions : Obligations.DevicesChangeByTheirOwnInstructions := by
  intro i s t h
  rcases exec_next h with ⟨f, -, rfl⟩ | ⟨-, hc⟩
  · exact ⟨fun _ _ => rfl, fun _ => rfl, fun _ => rfl, rfl, rfl, fun _ => rfl⟩
  cases hc with
  | load => simp [State.setRegBlock]
  | _ => simp

end Sys2Proof.Machine
end

section
/-! SUPPORT. The Step event (10_state.md R25): what it can do from a Running state, and the statements about fetch,
fault entry, the placing of an instruction and fetch coherence. -/

namespace Sys2Proof.Machine

/-! ## What a Step can do -/

theorem step_faulted {s : State} (h : s.run = .faulted) : step s = .next s := by
  simp only [step, h]

theorem step_of_fetch_error {s : State} {f : Fault} (h : s.run = .running) (hf : s.fetch = .error f) :
    step s = .next (s.raise f none) := by
  simp only [step, h, hf]

theorem step_of_decode_instr {s : State} {w : Word} {i : Instr} (h : s.run = .running) (hf : s.fetch = .ok w)
    (hi : decode w = .instr i) : step s = exec i s := by
  simp only [step, h, hf, hi]

theorem step_of_decode_unknown {s : State} {w : Word} (h : s.run = .running) (hf : s.fetch = .ok w)
    (hi : decode w = .unknown) : step s = .next s.advance := by
  simp only [step, h, hf, hi]
  rfl

theorem State.fetch_odd {s : State} (h : s.pc.toNat % 2 = 1) : s.fetch = .error .fetchMisaligned := by
  rcases s.fetch_cases with ⟨-, e⟩ | ⟨h', -⟩ | ⟨h', -⟩
  · exact e
  · omega
  · omega

theorem State.fetch_above {s : State} (h : s.pc.toNat % 2 = 0) (h' : 0xFFE < s.pc.toNat) :
    s.fetch = .error .fetchOutOfRange := by
  rcases s.fetch_cases with ⟨h₁, -⟩ | ⟨-, -, e⟩ | ⟨-, h₁, -⟩
  · omega
  · exact e
  · omega

theorem State.fetch_ok {s : State} (h : s.pc.toNat % 2 = 0) (h' : s.pc.toNat ≤ 0xFFE) :
    s.fetch = .ok (s.wordAt s.pc.toNat) := by
  rcases s.fetch_cases with ⟨h₁, -⟩ | ⟨-, h₁, -⟩ | ⟨-, -, e⟩
  · omega
  · omega
  · exact e

/-- All that a Step of a Running machine can do: one of the two fetch faults, or the decoded instruction, or the
no-op of an UNKNOWN word. -/
theorem step_cases {s : State} (h : s.run = .running) :
    (∃ f, (f = .fetchOutOfRange ∨ f = .fetchMisaligned) ∧ step s = .next (s.raise f none)) ∨
    (s.pc.toNat % 2 = 0 ∧ s.pc.toNat ≤ 0xFFE ∧
      ((∃ i, decode (s.wordAt s.pc.toNat) = .instr i ∧ step s = exec i s) ∨ step s = .next s.advance)) := by
  rcases s.fetch_cases with ⟨-, hf⟩ | ⟨-, -, hf⟩ | ⟨heven, hle, hf⟩
  · exact .inl ⟨_, .inr rfl, step_of_fetch_error h hf⟩
  · exact .inl ⟨_, .inl rfl, step_of_fetch_error h hf⟩
  · refine .inr ⟨heven, hle, ?_⟩
    cases hi : decode (s.wordAt s.pc.toNat) with
    | instr i => exact .inl ⟨i, rfl, step_of_decode_instr h hf hi⟩
    | unknown => exact .inr (step_of_decode_unknown h hf hi)

/-- Settles O6: the fetch gives the two bytes' word, and the Step is `exec` of what it decodes to. -/
theorem stepRunsTheDecodedInstruction : Obligations.StepRunsTheDecodedInstruction := fun _ _ h heven hle hi =>
  step_of_decode_instr h (State.fetch_ok heven hle) hi

/-- Settles O7: the fetch gives an UNKNOWN word, and the Step advances. -/
theorem unknownWordIsANoOp : Obligations.UnknownWordIsANoOp := fun _ h heven hle hi =>
  step_of_decode_unknown h (State.fetch_ok heven hle) hi

/-- Settles O8: each fetch fault is raised without an opcode. -/
theorem fetchFaultsAreTakenBeforeTheFetch : Obligations.FetchFaultsAreTakenBeforeTheFetch := fun _ h =>
  ⟨fun hodd => step_of_fetch_error h (State.fetch_odd hodd),
    fun heven habove => step_of_fetch_error h (State.fetch_above heven habove)⟩

/-- Settles O12: `exec` answers in both of its cases, and a Step in each of its own. -/
theorem everyStepAnswersANextState : Obligations.EveryStepAnswersANextState := by
  have hexec : ∀ (i : Instr) (s : State), ∃ t, exec i s = .next t := by
    intro i s
    rcases exec_cases i s with ⟨_, -, e⟩ | ⟨-, t, e, -⟩
    · exact ⟨_, e⟩
    · exact ⟨t, e⟩
  refine ⟨hexec, fun s => ?_⟩
  cases hrun : s.run with
  | faulted => exact ⟨s, step_faulted hrun⟩
  | running =>
    rcases step_cases hrun with ⟨f, -, e⟩ | ⟨-, -, ⟨i, -, e⟩ | e⟩
    · exact ⟨_, e⟩
    · exact e ▸ hexec i s
    · exact ⟨_, e⟩

/-! ## Fault entry (60_exceptions.md R139) -/

/-- The faults of the instructions are not those of the fetch (60_exceptions.md R130). -/
theorem faultIn_not_fetch {i : Instr} {s : State} {f : Fault} (h : i.faultIn s = some f) :
    ¬ (f = .fetchOutOfRange ∨ f = .fetchMisaligned) := by
  cases i with
  | call | ret | ldB | ldMemVx | ldVxMem | drw =>
    obtain ⟨-, h⟩ := Option.ite_none_right_eq_some.mp h
    cases h
    simp
  | _ => cases h

/-- A Step of a Running machine that ends Faulted has raised a fetch fault without an opcode, or a fault of the
instruction fetched, with its word. -/
theorem step_faults {s t : State} (h : s.run = .running) (hs : step s = .next t) (ht : t.run = .faulted) :
    (∃ f, (f = .fetchOutOfRange ∨ f = .fetchMisaligned) ∧ t = s.raise f none) ∨
    (∃ f, ¬ (f = .fetchOutOfRange ∨ f = .fetchMisaligned) ∧ t = raised f (s.wordAt s.pc.toNat) s) := by
  rcases step_cases h with ⟨f, hf, e⟩ | ⟨-, -, ⟨i, hi, e⟩ | e⟩
  · exact .inl ⟨f, hf, (Host.Outcome.next.inj (e.symm.trans hs)).symm⟩
  · rcases exec_next (e.symm.trans hs) with ⟨f, hf, ht'⟩ | ⟨-, hc⟩
    · exact .inr ⟨f, faultIn_not_fetch hf, encode_of_decode hi ▸ ht'⟩
    · exact absurd (h.symm.trans (hc.run_eq.symm.trans ht)) nofun
  · obtain rfl := Host.Outcome.next.inj (e.symm.trans hs)
    exact absurd (h.symm.trans ht) nofun

/-- Settles O10: the record of either kind of fault names `pc`, and holds a word exactly when one was fetched. -/
theorem faultEntryIsPrecise : Obligations.FaultEntryIsPrecise := by
  intro s t h hs ht
  rcases step_faults h hs ht with ⟨f, hf, rfl⟩ | ⟨f, hf, rfl⟩
  · exact ⟨⟨f, s.pc, none⟩, rfl, rfl, ⟨fun _ => hf, fun _ => rfl⟩, nofun⟩
  · exact ⟨⟨f, s.pc, some (s.wordAt s.pc.toNat)⟩, rfl, rfl, ⟨nofun, fun h => absurd h hf⟩,
      fun _ hw => (Option.some.inj hw).symm⟩

/-! ## The placing of an instruction, and fetch coherence (20_memory.md R34) -/

/-- Two bytes written at an address are the word read there. -/
theorem State.writeBytes_wordAt (s : State) (a : Nat) (hi lo : Byte) :
    (s.writeBytes a [hi, lo]).wordAt a = wordOfBytes hi lo := by
  simp [State.wordAt, State.writeBytes_readByte]

/-- A machine made ready to fetch can fetch. -/
theorem State.readyToFetch_fetchable (s : State) :
    s.readyToFetch.run = .running ∧ s.readyToFetch.pc.toNat % 2 = 0 ∧ s.readyToFetch.pc.toNat ≤ 0xFFE := by
  refine ⟨rfl, ?_⟩
  simp only [State.readyToFetch, Word.getLsbD_zero, Bool.or_eq_true, decide_eq_true_eq]
  split
  · decide
  · omega

/-- A Running machine that can fetch is ready. -/
theorem State.readyToFetch_eq_self {s : State} (h : s.run = .running) (heven : s.pc.toNat % 2 = 0)
    (hle : s.pc.toNat ≤ 0xFFE) : s.readyToFetch = s := by
  have hpc : ¬ ((s.pc.getLsbD 0 || decide (s.pc.toNat > 0xFFE)) = true) := by
    simp only [Word.getLsbD_zero, Bool.or_eq_true, decide_eq_true_eq]
    omega
  rw [State.readyToFetch, if_pos h, if_neg hpc, ← h]

theorem State.withFetchWord_eq (s : State) (w : Word) :
    s.withFetchWord 16 w.toNat =
      s.readyToFetch.writeBytes s.readyToFetch.pc.toNat [highByte w, lowByte w] := by
  rw [State.withFetchWord, tableWord_toNat]

theorem State.withFetchWord_fetch (s : State) (w : Word) : (s.withFetchWord 16 w.toNat).fetch = .ok w := by
  obtain ⟨-, heven, hle⟩ := s.readyToFetch_fetchable
  rw [State.withFetchWord_eq, State.fetch_ok (by rwa [State.writeBytes_pc]) (by rwa [State.writeBytes_pc]),
    State.writeBytes_pc, State.writeBytes_wordAt, wordOfBytes_bytes]

/-- What is written to memory writes nothing else. -/
theorem State.writeBytes_eq (s : State) (a : Nat) (bs : List Byte) :
    s.writeBytes a bs = { s with mem := (s.writeBytes a bs).mem } := by
  induction bs generalizing s a with
  | nil => rfl
  | cons b bs ih => exact ih (s.writeByte a b) (a + 1)

theorem State.writeBytes_readByte_inside (s : State) (a : Nat) (bs : List Byte) {k : Nat} (hk : k < bs.length) :
    (s.writeBytes a bs).readByte (a + k) = bs[k] := by
  rw [State.writeBytes_readByte, dif_pos (by omega)]
  simp

theorem State.writeBytes_readByte_outside (s : State) (a : Nat) (bs : List Byte) {k : Nat}
    (hk : k < a ∨ a + bs.length ≤ k) : (s.writeBytes a bs).readByte k = s.readByte k := by
  rw [State.writeBytes_readByte, dif_neg (by omega)]

/-- Settles O13: the fetch of the next Step gives the word placed; in a machine that can fetch already, placing is a
write of two bytes. -/
theorem placedInstructionRunsNext : Obligations.PlacedInstructionRunsNext := by
  intro s w
  constructor
  · intro i hi
    refine step_of_decode_instr ?_ (s.withFetchWord_fetch w) hi
    rw [State.withFetchWord_eq, State.writeBytes_run, s.readyToFetch_fetchable.1]
  · intro h heven hle
    rw [State.withFetchWord_eq, State.readyToFetch_eq_self h heven hle]
    refine ⟨State.writeBytes_eq .., fun a h₀ h₁ => ?_⟩
    exact State.writeBytes_readByte_outside _ _ _ (by simp only [List.length_cons, List.length_nil]; omega)

/-- Settles O59: after the store the word at the next `pc` is that of V0 and V1. -/
theorem storesAreSeenByTheNextFetch : Obligations.StoresAreSeenByTheNextFetch := by
  intro s t i hwf hrun heven hle hI hword hs
  rcases exec_ldMemVx_cases 1 s with ⟨hout, -⟩ | ⟨-, e⟩
  · simp at hout
    bv_omega
  obtain rfl := Host.Outcome.next.inj (e.symm.trans hs)
  have hpc : ((s.writeBytes s.I.toNat (s.regBlock 1)).advance).pc = s.I := by
    rw [State.advance_pc, State.writeBytes_pc, hI]
  have hfetch : ((s.writeBytes s.I.toNat (s.regBlock 1)).advance).fetch = .ok (encode i) := by
    rw [State.fetch_ok (by rw [hpc]; bv_omega) (by rw [hpc]; bv_omega), hpc, ← hword]
    exact congrArg _ (s.writeBytes_wordAt s.I.toNat (s.reg 0) (s.reg 1))
  exact step_of_decode_instr (by rwa [State.advance_run, State.writeBytes_run]) hfetch (decode_encode i hwf)

end Sys2Proof.Machine
end

section
/-! SUPPORT. The invariant and the host's events (10_state.md R24 to R28): what each event does, what all of them
keep, and the statements about reset, the invariant and the reachable states. -/

namespace Sys2Proof.Machine

/-! ## Keeping the invariant -/

/-- The invariant speaks of memory, `run`, `fault`, `pc` and the stack alone. -/
theorem State.Inv.of_eq {s t : State} (h : s.Inv) (hmem : Memory.wf t.font t.mem) (hrun : t.run = s.run)
    (hfault : t.fault = s.fault) (hpc : t.pc = s.pc) (hstack : t.stack = s.stack) : t.Inv where
  mem := hmem
  faultIff := by rw [hrun, hfault]; exact h.faultIff
  faultPc := by rw [hfault, hpc]; exact h.faultPc
  faultOpcode := by rw [hfault]; exact h.faultOpcode
  pcMax := by rw [hpc]; exact h.pcMax
  stackEven := by rw [hstack]; exact h.stackEven
  stackMax := by rw [hstack]; exact h.stackMax

theorem State.Inv.fault_eq_none {s : State} (h : s.Inv) (hrun : s.run = .running) : s.fault = none := by
  rw [← Option.not_isSome_iff_eq_none, ← h.faultIff, hrun]
  nofun

/-- Taking a fault keeps the invariant, if the word is absent exactly for the two fetch faults. -/
theorem State.Inv.raise {s : State} (h : s.Inv) {f : Fault} {o : Option Word}
    (ho : o = none ↔ (f = .fetchOutOfRange ∨ f = .fetchMisaligned)) : (s.raise f o).Inv where
  mem := h.mem
  faultIff := ⟨fun _ => rfl, fun _ => rfl⟩
  faultPc := by
    intro r hr
    cases hr
    rfl
  faultOpcode := by
    intro r hr
    cases hr
    exact ho
  pcMax := h.pcMax
  stackEven := h.stackEven
  stackMax := h.stackMax

/-- A completing instruction, fetched by a Running machine, keeps the invariant. -/
theorem State.Inv.completes {i : Instr} {s t : State} (h : s.Inv) (hrun : s.run = .running)
    (heven : s.pc.toNat % 2 = 0) (hle : s.pc.toNat ≤ 0xFFE) (hc : Completes i s t) : t.Inv := by
  have hnone : t.fault = none := hc.fault_eq.trans (h.fault_eq_none hrun)
  have hnext : (s.pc + 2).toNat % 2 = 0 ∧ (s.pc + 2).toNat ≤ 0x1000 := by bv_omega
  have hstack : ∀ k (hk : k < 16), t.stack[k].toNat % 2 = 0 ∧ t.stack[k].toNat ≤ 0x1000 := by
    intro k hk
    rcases hc.stack_cases with e | ⟨hsp, e⟩
    · simp only [e]
      exact ⟨h.stackEven k hk, h.stackMax k hk⟩
    · simp only [e, Vector.getElem_set]
      split
      · exact hnext
      · exact ⟨h.stackEven k hk, h.stackMax k hk⟩
  constructor
  case mem =>
    rw [hc.font_eq]
    rcases hc.mem_cases with e | ⟨bs, -, hin, e⟩
    · exact e ▸ h.mem
    · rw [e, ← State.writeBytes_font s s.I.toNat bs]
      exact State.writeBytes_wf h.mem hin
  case faultIff =>
    rw [hc.run_eq, hc.fault_eq]
    exact h.faultIff
  case faultPc => rw [hnone]; nofun
  case faultOpcode => rw [hnone]; nofun
  case pcMax => exact hc.pc_le hle h.stackMax
  case stackEven => exact fun k hk => (hstack k hk).1
  case stackMax => exact fun k hk => (hstack k hk).2

/-- Settles O17: a Faulted machine stays as it is; a Running one takes a fault precisely or completes an instruction
(an UNKNOWN word does what SYS does). -/
theorem everyStepKeepsTheInvariant : Obligations.EveryStepKeepsTheInvariant := by
  intro s t h hs
  cases hrun : s.run with
  | faulted =>
    rw [← Host.Outcome.next.inj ((step_faulted hrun).symm.trans hs)]
    exact h
  | running =>
    rcases step_cases hrun with ⟨f, hf, e⟩ | ⟨heven, hle, ⟨i, -, e⟩ | e⟩
    · rw [← Host.Outcome.next.inj (e.symm.trans hs)]
      exact h.raise ⟨fun _ => hf, fun _ => rfl⟩
    · rcases exec_next (e.symm.trans hs) with ⟨f, hf, rfl⟩ | ⟨-, hc⟩
      · exact h.raise ⟨nofun, fun hfetch => absurd hfetch (faultIn_not_fetch hf)⟩
      · exact h.completes hrun heven hle hc
    · rw [← Host.Outcome.next.inj (e.symm.trans hs)]
      exact h.completes hrun heven hle (.advance (.sys 0) s)

/-! ## Reset (10_state.md R28) -/

/-- Settles O16: no byte is listed, no fault recorded, and the stack holds zeros. -/
theorem invariantHoldsAtReset : Obligations.InvariantHoldsAtReset := fun font n =>
  { mem := Memory.wf_nil font
    faultIff := ⟨nofun, nofun⟩
    faultPc := nofun
    faultOpcode := nofun
    pcMax := by simp [State.resetWith]
    stackEven := by simp [State.resetWith]
    stackMax := by simp [State.resetWith] }

/-- Reset memory reads as FONT, then zeros (20_memory.md R31). -/
theorem resetWith_readByte (font : Font) (n a : Nat) :
    (State.resetWith font n).readByte a = Memory.unlisted font a := rfl

theorem resetWith_reg (font : Font) (n : Nat) (x : Nibble) : (State.resetWith font n).reg x = 0 := by
  simp [State.reg, State.resetWith]

/-- Settles O14: each piece of the reset state as its rule gives it. -/
theorem resetLeavesTheStatedValues : Obligations.ResetLeavesTheStatedValues := by
  refine ⟨?_, fun _ => rfl⟩
  rintro font n s rfl
  refine ⟨resetWith_reg font n, rfl, rfl, rfl, ?stack, rfl, rfl, ?font, ?zeros, ?fb, rfl, rfl, rfl, ?_⟩
  case stack => simp [State.resetWith]
  case font => exact fun a ha => (resetWith_readByte font n a).trans (dif_pos ha)
  case zeros => exact fun a ha => (resetWith_readByte font n a).trans (dif_neg (by omega))
  case fb => simp [State.resetWith, blankFramebuffer]
  simp [State.tone, State.resetWith]

/-- Settles O15: a read after a write, the zeros of reset, and LD Vx, kk as one assignment. -/
theorem registersAreOneBankNoneHardWired : Obligations.RegistersAreOneBankNoneHardWired :=
  ⟨State.setReg_reg, resetWith_reg, fun s x kk => ⟨_, rfl, s.setReg_reg_self x kk⟩⟩

/-! ## What each event does (10_state.md R24) -/

theorem State.timerTick_faulted {s : State} (h : s.run = .faulted) : s.timerTick = s := by
  simp only [State.timerTick, h]

theorem State.timerTick_running {s : State} (h : s.run = .running) :
    s.timerTick = { s with
      dt := if s.dt.toNat > 0 then s.dt - 1 else s.dt
      st := if s.st.toNat > 0 then s.st - 1 else s.st } := by
  simp only [State.timerTick, h]

theorem State.keyUpdate_faulted {s : State} (h : s.run = .faulted) (mask : Word) : s.keyUpdate mask = s := by
  simp only [State.keyUpdate, h]

theorem State.keyUpdate_running {s : State} (h : s.run = .running) (mask : Word) :
    s.keyUpdate mask = { s with keys := mask } := by
  simp only [State.keyUpdate, h]

/-- A tick writes the timers alone. -/
theorem State.timerTick_eq (s : State) : s.timerTick = { s with dt := s.timerTick.dt, st := s.timerTick.st } := by
  unfold State.timerTick
  split <;> rfl

/-- A key update writes the latch alone. -/
theorem State.keyUpdate_eq (s : State) (mask : Word) :
    s.keyUpdate mask = { s with keys := (s.keyUpdate mask).keys } := by
  unfold State.keyUpdate
  split <;> rfl

theorem State.loadRom_next {s t : State} {bytes : List Byte} (h : s.loadRom bytes = .next t) :
    bytes.length ≤ 3584 ∧ t = s.writeBytes 0x200 bytes := by
  unfold State.loadRom at h
  split at h
  · next hlen => exact ⟨hlen, (Host.Outcome.next.inj h).symm⟩
  · cases h

/-- Settles O18: a Step and a LoadRom within memory keep the invariant, the other events write nothing it speaks of. -/
theorem everyEventKeepsTheInvariant : Obligations.EveryEventKeepsTheInvariant := by
  intro e s t h ht
  cases e with
  | reset =>
    rw [← Host.Outcome.next.inj ht]
    exact invariantHoldsAtReset s.font s.rndDraws
  | loadRom bytes =>
    obtain ⟨hlen, rfl⟩ := State.loadRom_next ht
    exact h.of_eq (State.writeBytes_wf h.mem (by omega)) (by simp) (by simp) (by simp) (by simp)
  | step => exact everyStepKeepsTheInvariant s t h ht
  | timerTick =>
    rw [← Host.Outcome.next.inj ht, State.timerTick_eq]
    exact h.of_eq h.mem rfl rfl rfl rfl
  | keyUpdate mask =>
    rw [← Host.Outcome.next.inj ht, State.keyUpdate_eq]
    exact h.of_eq h.mem rfl rfl rfl rfl
  | hostRead =>
    rw [← Host.Outcome.next.inj ht]
    exact h

/-! ## Runs of events -/

/-- A field of State that neither a fault nor a completing instruction writes is kept by every Step. -/
theorem step_keeps {α : Type} {φ : State → α} (hraise : ∀ s f o, φ (s.raise f o) = φ s)
    (hc : ∀ {i s t}, Completes i s t → φ t = φ s) {s t : State} (h : step s = .next t) : φ t = φ s := by
  cases hrun : s.run with
  | faulted => rw [← Host.Outcome.next.inj ((step_faulted hrun).symm.trans h)]
  | running =>
    rcases step_cases hrun with ⟨f, -, e⟩ | ⟨-, -, ⟨i, -, e⟩ | e⟩
    · rw [← Host.Outcome.next.inj (e.symm.trans h), hraise]
    · rcases exec_next (e.symm.trans h) with ⟨f, -, rfl⟩ | ⟨-, hi⟩
      · exact hraise s f _
      · exact hc hi
    · rw [← Host.Outcome.next.inj (e.symm.trans h), hc (.advance (.sys 0) s)]

theorem Event.apply_font {e : Event} {s t : State} (h : e.apply s = .next t) : t.font = s.font := by
  cases e with
  | reset => rw [← Host.Outcome.next.inj h, State.resetEvent_font]
  | loadRom bytes =>
    obtain ⟨-, rfl⟩ := State.loadRom_next h
    exact s.writeBytes_font _ bytes
  | step => exact step_keeps (φ := State.font) (fun _ _ _ => rfl) Completes.font_eq h
  | timerTick => rw [← Host.Outcome.next.inj h, State.timerTick_eq]
  | keyUpdate mask => rw [← Host.Outcome.next.inj h, State.keyUpdate_eq]
  | hostRead => rw [← Host.Outcome.next.inj h]

/-- What every event keeps, every run keeps. -/
theorem runEvents_keeps {P : State → Prop} (hP : ∀ (e : Event) {s t : State}, P s → e.apply s = .next t → P t)
    (es : List Event) {s t : State} (hs : P s) (h : runEvents es s = .next t) : P t := by
  induction es generalizing s with
  | nil => exact Host.Outcome.next.inj h ▸ hs
  | cons e es ih =>
    simp only [runEvents] at h
    split at h
    · next u hu => exact ih (hP e hs hu) h
    · cases h
    · cases h

theorem State.Inv.safe_or_faulted {s : State} (h : s.Inv) : s.Safe ∨ ∃ r, s.fault = some r ∧ r.pc = s.pc := by
  cases hrun : s.run with
  | running => exact .inl hrun
  | faulted =>
    obtain ⟨r, hr⟩ := Option.isSome_iff_exists.mp (h.faultIff.mp hrun)
    exact .inr ⟨r, hr, h.faultPc r hr⟩

/-- Settles O19: the invariant and the font hold at reset and every event keeps them. -/
theorem reachableStatesMeetTheInvariant : Obligations.ReachableStatesMeetTheInvariant := by
  rintro font s ⟨n, es, -, hrun⟩
  obtain ⟨hinv, hfont⟩ := runEvents_keeps (P := fun s => s.Inv ∧ s.font = font)
    (fun e s t h ht => ⟨everyEventKeepsTheInvariant e s t h.1 ht, (Event.apply_font ht).trans h.2⟩)
    es ⟨invariantHoldsAtReset font n, rfl⟩ hrun
  exact ⟨hinv, hfont, hinv.safe_or_faulted⟩

/-! ## The statements about single events -/

/-- In a Faulted machine no event but Reset writes `run` or the record (60_exceptions.md R140). -/
theorem Event.apply_faulted {e : Event} {s t : State} (hs : s.run = .faulted) (he : e ≠ .reset)
    (h : e.apply s = .next t) : t.run = .faulted ∧ t.fault = s.fault := by
  cases e with
  | reset => exact absurd rfl he
  | loadRom bytes =>
    obtain ⟨-, rfl⟩ := State.loadRom_next h
    exact ⟨(s.writeBytes_run _ bytes).trans hs, s.writeBytes_fault _ bytes⟩
  | step =>
    obtain rfl := Host.Outcome.next.inj ((step_faulted hs).symm.trans h)
    exact ⟨hs, rfl⟩
  | timerTick =>
    rw [← Host.Outcome.next.inj h, State.timerTick_faulted hs]
    exact ⟨hs, rfl⟩
  | keyUpdate mask =>
    rw [← Host.Outcome.next.inj h, State.keyUpdate_faulted hs]
    exact ⟨hs, rfl⟩
  | hostRead =>
    rw [← Host.Outcome.next.inj h]
    exact ⟨hs, rfl⟩

/-- Settles O9: each event in a Faulted machine. -/
theorem faultedIsLeftOnlyByReset : Obligations.FaultedIsLeftOnlyByReset := by
  intro s hs
  have hother (e : Event) (t : State) : e ≠ .reset → e.apply s = .next t → t.run = .faulted ∧ t.fault = s.fault :=
    Event.apply_faulted hs
  refine ⟨step_faulted hs, State.timerTick_faulted hs, State.keyUpdate_faulted hs, rfl, ?_,
    fun bytes t => hother (.loadRom bytes) t nofun, hother, _, rfl, rfl, rfl⟩
  rw [State.hostRead, hs]

/-- One tick of a timer (10_state.md R26). -/
theorem timer_tick_toNat (b : Byte) : (if b.toNat > 0 then b - 1 else b).toNat = b.toNat - 1 := by
  split
  · bv_omega
  · omega

/-- Settles O48: a tick of each timer. -/
theorem timerTickClampsAtZero : Obligations.TimerTickClampsAtZero := by
  intro s hs
  refine ⟨?_, ?_, s.timerTick_eq, rfl⟩
  · rw [State.timerTick_running hs, timer_tick_toNat]
  · rw [State.timerTick_running hs, timer_tick_toNat]

/-- Settles O49: neither a Step nor an event other than KeyUpdate and Reset writes the latch. -/
theorem onlyKeyUpdateWritesTheLatch : Obligations.OnlyKeyUpdateWritesTheLatch := by
  refine ⟨fun s mask hs => congrArg _ (State.keyUpdate_running hs mask), ?_, fun _ _ => rfl⟩
  intro e s t hkey hreset h
  cases e with
  | reset => exact absurd rfl hreset
  | loadRom bytes =>
    obtain ⟨-, rfl⟩ := State.loadRom_next h
    exact s.writeBytes_keys _ bytes
  | step => exact step_keeps (φ := State.keys) (fun _ _ _ => rfl) Completes.keys_eq h
  | timerTick => rw [← Host.Outcome.next.inj h, State.timerTick_eq]
  | keyUpdate mask => exact absurd rfl (hkey mask)
  | hostRead => rw [← Host.Outcome.next.inj h]

/-- Settles O50: an image that fits is written from 0x200 on. -/
theorem loadRomCopiesTheImage : Obligations.LoadRomCopiesTheImage := by
  intro s bytes
  exact ⟨fun hlen => ⟨s.writeBytes 0x200 bytes, if_pos hlen, fun _ => s.writeBytes_readByte_inside _ bytes,
      fun _ => s.writeBytes_readByte_outside _ bytes, State.writeBytes_eq ..⟩,
    fun hlen => if_neg (Nat.not_le.mpr hlen)⟩

/-- Settles O51: HostRead copies four pieces of State. -/
theorem hostReadChangesNothing : Obligations.HostReadChangesNothing := by
  refine fun s => ⟨rfl, rfl, ?_, rfl, rfl⟩
  simp [State.hostRead, State.tone, ← BitVec.toNat_inj]

end Sys2Proof.Machine
end

section
/-! SUPPORT. Control transfer (40_control_flow.md): SYS, JP, JP V0, CALL and RET, and the statements about them. -/

namespace Sys2Proof.Machine

/-- A jump writes `pc` alone. -/
theorem State.jumpTo_onlyPc (s : State) (w : Word) : OnlyPc s (s.jumpTo w) := ⟨rfl, fun _ => rfl⟩

/-- Settles O20: SYS is one advance. -/
theorem sysOnlyAdvances : Obligations.SysOnlyAdvances := fun s _ => ⟨s.advance, rfl, rfl, s.jumpTo_onlyPc _⟩

/-- Settles O22: JP is one jump, and its target a 12-bit address, which can be fetched at when it is even. -/
theorem jpSetsThePc : Obligations.JpSetsThePc := by
  intro s nnn
  have hpc : (s.jumpTo (addrOperand nnn)).pc.toNat = nnn.toNat := addrOperand_toNat nnn
  refine ⟨decode_encode (.jp nnn) rfl, s.jumpTo (addrOperand nnn), rfl, hpc, s.jumpTo_onlyPc _, ?own, ?odd, ?even⟩
  case own =>
    intro h
    obtain hw : addrOperand nnn = s.pc := BitVec.eq_of_toNat_eq ((addrOperand_toNat nnn).trans h.symm)
    rw [hw]
    rfl
  case odd => exact fun hrun hodd => step_of_fetch_error hrun (State.fetch_odd (by rwa [hpc]))
  case even =>
    intro heven
    have := nnn.isLt
    exact ⟨_, State.fetch_ok (by rwa [hpc]) (by omega)⟩

/-- Settles O23: JP V0 is one jump, to a sum that cannot wrap. -/
theorem jpV0AddsV0Unmasked : Obligations.JpV0AddsV0Unmasked := fun s nnn =>
  ⟨s.jumpTo (s.jumpV0Target nnn), rfl, s.jumpV0Target_toNat nnn, s.jumpTo_onlyPc _⟩

/-- Settles O24: the two cases of CALL. -/
theorem callPushesTheNextAddress : Obligations.CallPushesTheNextAddress := by
  intro s nnn
  refine ⟨decode_encode (.call nnn) rfl, ?_⟩
  rcases exec_call_cases nnn s with ⟨hfull, e⟩ | ⟨hroom, e⟩
  · exact ⟨fun _ => e, fun h => absurd hfull (by omega)⟩
  · refine ⟨fun h => absurd hroom (by omega), fun _ => ⟨_, e, ?_, ?_, rfl, addrOperand_toNat nnn, rfl, fun _ => rfl⟩⟩
    · exact Vector.getElem_set_self _
    · exact fun k hk hne => Vector.getElem_set_ne hroom hk hne.symm

/-- A machine whose `pc` is 0x1000 faults at its next fetch (20_memory.md R34). -/
theorem step_at_end_of_memory {s : State} (hrun : s.run = .running) (hpc : s.pc = 0x1000) :
    step s = .next { s with run := .faulted, fault := some ⟨.fetchOutOfRange, 0x1000, none⟩ } := by
  rw [step_of_fetch_error hrun (State.fetch_above (by rw [hpc]; decide) (by rw [hpc]; decide)), State.raise, hpc]

/-- Settles O21: the two cases of RET. -/
theorem retPopsTheReturnAddress : Obligations.RetPopsTheReturnAddress := by
  refine ⟨decode_encode .ret rfl, fun s => ?_⟩
  rcases exec_ret_cases s with ⟨hempty, e⟩ | ⟨hsome, e⟩
  · exact ⟨fun _ => e, fun h => absurd hempty (by omega)⟩
  · exact ⟨fun h => absurd hsome (by omega), fun _ => ⟨_, e, rfl, rfl, rfl, fun _ => rfl,
      fun hinv => ⟨hinv.stackEven _ _, hinv.stackMax _ _⟩, step_at_end_of_memory⟩⟩

/-- Settles O25: the pop reads the entry the push wrote. -/
theorem retComesBackAfterTheCall : Obligations.RetComesBackAfterTheCall := by
  intro s t u nnn hroom hcall hsp hstack
  rcases exec_call_cases nnn s with ⟨hfull, -⟩ | ⟨_, e⟩
  · omega
  obtain rfl := Host.Outcome.next.inj (e.symm.trans hcall)
  have hdepth : u.sp.val = s.sp.val + 1 := congrArg Fin.val hsp
  rcases exec_ret_cases u with ⟨hempty, -⟩ | ⟨_, e'⟩
  · omega
  refine ⟨_, e', ?pc, ?sp, ?live⟩
  case pc => simp [hstack, hdepth]
  case sp => exact Fin.ext (by simp [hdepth])
  case live =>
    intro k hk
    simp only [hstack]
    exact Vector.getElem_set_ne _ _ (by omega)

end Sys2Proof.Machine
end

section
/-! SUPPORT. The ALU instructions that write the flag register, and RND (41_load_alu.md R87 to R92). -/

namespace Sys2Proof.Machine

/-- What an instruction does that leaves the result `r` in `V[x]` and then the flag `f` in VF (41_load_alu.md R80). -/
theorem exec_result {i : Instr} {s : State} {x : Nibble} {r : Byte} {f : Bool}
    (h : exec i s = .next (s.writeResultAndFlag x r f)) :
    ∃ t, exec i s = .next t ∧ t.pc = s.pc + 2 ∧ OnlyRegFlagPc x s t ∧ t.reg 0xF = flagByte f ∧
      (x ≠ 0xF → t.reg x = r) := by
  refine ⟨_, h, rfl, ⟨rfl, fun y hx hF => ?_, fun _ => rfl⟩, ?_, fun hx => ?_⟩
  · rw [State.writeResultAndFlag_reg, if_neg hF, if_neg hx]
  · rw [State.writeResultAndFlag_reg, if_pos rfl]
  · rw [State.writeResultAndFlag_reg, if_neg hx, if_pos rfl]

theorem flagByte_decide (p : Prop) [Decidable p] : flagByte (decide p) = if p then 1 else 0 := by
  simp [flagByte]

theorem flagByte_getLsbD_toNat (a : Byte) (k : Nat) : (flagByte (a.getLsbD k)).toNat = a.toNat / 2 ^ k % 2 := by
  rw [BitVec.getLsbD, Nat.testBit_eq_decide_div_mod_eq, flagByte_decide]
  split
  · next h => exact h.symm
  · next h => exact (Nat.mod_two_ne_one.mp h).symm

theorem subResult_toNat (a b : Byte) : ((subResult a b).toNat : Int) = (a.toNat - b.toNat : Int) % 256 := by
  have := b.isLt
  rw [subResult, BitVec.toNat_ofNat]
  omega

/-- Settles O31: ADD Vx, Vy leaves the sum modulo 256 and the carry. -/
theorem addSetsTheCarry : Obligations.AddSetsTheCarry := by
  intro s x y
  obtain ⟨t, ht, hpc, honly, hflag, hres⟩ := exec_result (i := .addVxVy x y) (s := s) rfl
  exact ⟨decode_encode (.addVxVy x y) rfl, t, ht, hpc, honly, hflag.trans (flagByte_decide _),
    fun hx => by rw [hres hx, addResult_toNat]⟩

/-- Settles O32: SUB and SUBN leave a difference modulo 256 and the strict comparison. -/
theorem subtractsSetStrictlyGreater : Obligations.SubtractsSetStrictlyGreater := by
  intro s x y
  refine ⟨decode_encode (.subVxVy x y) rfl, decode_encode (.subnVxVy x y) rfl, ?_, ?_⟩
  · obtain ⟨t, ht, hpc, honly, hflag, hres⟩ := exec_result (i := .subVxVy x y) (s := s) rfl
    exact ⟨t, ht, hpc, honly, hflag.trans (flagByte_decide _), fun hx => by rw [hres hx, subResult_toNat]⟩
  · obtain ⟨t, ht, hpc, honly, hflag, hres⟩ := exec_result (i := .subnVxVy x y) (s := s) rfl
    exact ⟨t, ht, hpc, honly, hflag.trans (flagByte_decide _), fun hx => by rw [hres hx, subResult_toNat]⟩

/-- Settles O33: SHR and SHL leave `V[x]` shifted by one and the bit shifted out. -/
theorem shiftsSetTheBitShiftedOut : Obligations.ShiftsSetTheBitShiftedOut := by
  intro s x y
  have hlt := (s.reg x).isLt
  constructor
  · obtain ⟨t, ht, hpc, honly, hflag, hres⟩ := exec_result (i := .shrVx x y) (s := s) rfl
    refine ⟨t, ht, hpc, honly, ?_, fun hx => ?_⟩
    · rw [hflag, shrFlag, flagByte_getLsbD_toNat, pow_zero, Nat.div_one]
    · rw [hres hx, shrResult, BitVec.toNat_ushiftRight, Nat.shiftRight_eq_div_pow, pow_one]
  · obtain ⟨t, ht, hpc, honly, hflag, hres⟩ := exec_result (i := .shlVx x y) (s := s) rfl
    refine ⟨t, ht, hpc, honly, ?_, fun hx => ?_⟩
    · rw [hflag, shlFlag, flagByte_getLsbD_toNat]
      omega
    · rw [hres hx, shlResult, BitVec.toNat_shiftLeft, Nat.shiftLeft_eq, pow_one]

/-- Settles O34: RND assigns the draw AND `kk`, from the state with the draw made. -/
theorem rndIsMaskedByTheImmediate : Obligations.RndIsMaskedByTheImmediate := by
  intro s x kk
  have hreg : (s.draw.2.setReg x (s.draw.1 &&& kk)).advance.reg x = Config.rnd s.rndDraws &&& kk :=
    State.setReg_reg_self ..
  refine ⟨_, rfl, hreg, fun k hk => ?_, rfl, State.setReg_advance_onlyRegPc ..⟩
  rw [hreg, BitVec.getLsbD_and, hk, Bool.and_false]

end Sys2Proof.Machine
end

section
/-! SUPPORT. Index register and memory (42_index_memory.md, 20_memory.md): loads of `I`, BCD, the block transfers,
and memory as plain storage. -/

namespace Sys2Proof.Machine

/-! ## The index register -/

/-- Settles O35: LD I writes the 12 bits; at 0xFFF one byte is in range and two are not. -/
theorem ldIZeroExtendsTheAddress : Obligations.LdIZeroExtendsTheAddress := by
  intro s nnn
  refine ⟨decode_encode (.ldI nnn) rfl, _, rfl, addrOperand_toNat nnn, rfl, rfl, fun _ => rfl, ?_⟩
  rintro rfl
  have hI : (addrOperand 0xFFF).toNat = 0xFFF := addrOperand_toNat _
  exact ⟨State.memRead_some _ (.inr (by change (addrOperand 0xFFF).toNat + 1 ≤ 4096; omega)),
    State.memRead_none _ (by decide) (by change 4096 < (addrOperand 0xFFF).toNat + 2; omega)⟩

theorem State.glyphAddress_toNat (s : State) (x : Nibble) : (s.glyphAddress x).toNat = 5 * (s.reg x).toNat := by
  have := (s.reg x).isLt
  rw [State.glyphAddress, BitVec.toNat_mul, State.regWide_toNat]
  exact Nat.mod_eq_of_lt (by change 5 * _ < 65536; omega)

/-- Settles O36: LD F and ADD I each write `I` and advance. -/
theorem indexArithmeticIsSixteenBits : Obligations.IndexArithmeticIsSixteenBits := by
  intro s x
  have hsum : (s.I + s.regWide x).toNat = (s.I.toNat + (s.reg x).toNat) % 65536 := by
    rw [BitVec.toNat_add, State.regWide_toNat]
  exact ⟨⟨_, rfl, s.glyphAddress_toNat x, rfl, rfl, fun _ => rfl⟩, ⟨_, rfl, hsum, rfl, rfl, fun _ => rfl⟩⟩

/-! ## Stores -/

/-- What an instruction does that stores `bs` from `I` on and advances (20_memory.md R39). -/
theorem exec_store {i : Instr} {s : State} {bs : List Byte}
    (h : exec i s = .next (s.writeBytes s.I.toNat bs).advance) :
    ∃ t, exec i s = .next t ∧ (∀ k (hk : k < bs.length), t.readByte (s.I.toNat + k) = bs[k]) ∧
      t.pc = s.pc + 2 ∧ OnlyMemPc s.I.toNat bs.length s t := by
  refine ⟨_, h, fun _ => s.writeBytes_readByte_inside _ bs, by simp, ?_, fun _ => s.writeBytes_readByte_outside _ bs⟩
  rw [State.writeBytes_eq]
  rfl

/-- Settles O37: LD B stores the three digits of `V[x]`, or faults. -/
theorem bcdWritesThreeDigits : Obligations.BcdWritesThreeDigits := by
  intro s x
  refine ⟨decode_encode (.ldB x) rfl, ?_⟩
  rcases exec_ldB_cases x s with ⟨hout, e⟩ | ⟨hin, e⟩
  · exact ⟨fun h => absurd hout (by omega), fun _ => e⟩
  · refine ⟨fun _ => ?_, fun h => absurd hin (by omega)⟩
    obtain ⟨t, ht, hbytes, hpc, honly⟩ := exec_store e
    refine ⟨t, ht, ?_, ?_, ?_, hpc, honly⟩
    · exact (congrArg BitVec.toNat (hbytes 0 (by simp))).trans BitVec.toNat_udiv
    · rw [hbytes 1 (by simp)]
      exact BitVec.toNat_umod.trans (congrArg (· % 10) BitVec.toNat_udiv)
    · rw [hbytes 2 (by simp)]
      exact BitVec.toNat_umod

/-- Settles O38: LD [I], Vx stores the register block, or faults. -/
theorem blockStoreWritesV0ToVx : Obligations.BlockStoreWritesV0ToVx := by
  intro s x
  rcases exec_ldMemVx_cases x s with ⟨hout, e⟩ | ⟨hin, e⟩
  · exact ⟨fun h => absurd hout (by omega), fun _ => e⟩
  · refine ⟨fun _ => ?_, fun h => absurd hin (by omega)⟩
    obtain ⟨t, ht, hbytes, hpc, honly⟩ := exec_store e
    refine ⟨t, ht, fun r hr => ?_, hpc, s.regBlock_length x ▸ honly⟩
    rw [hbytes r.toNat (by rw [State.regBlock_length]; omega), State.regBlock_getElem, BitVec.ofNat_toNat,
      BitVec.setWidth_eq]

/-! ## The block load -/

/-- Loading registers writes nothing but registers. -/
theorem State.setRegsFrom_eq (s : State) (x : Nat) (bs : List Byte) :
    s.setRegsFrom x bs = { s with V := (s.setRegsFrom x bs).V } := by
  induction bs generalizing s x with
  | nil => rfl
  | cons b bs ih => exact ih (s.setReg (BitVec.ofNat 4 x) b) (x + 1)

theorem State.setRegBlock_eq (s : State) (bs : List Byte) :
    s.setRegBlock bs = { s with V := (s.setRegBlock bs).V } := s.setRegsFrom_eq 0 bs

theorem State.setRegBlock_reg_of_lt_length (s : State) {bs : List Byte} {r : Nibble} (hlen : bs.length ≤ 16)
    (hr : r.toNat < bs.length) : (s.setRegBlock bs).reg r = bs[r.toNat] := by
  rw [State.setRegBlock, State.setRegsFrom_reg _ _ _ _ (by omega), dif_pos (by omega)]
  rfl

/-- Settles O39: LD Vx, [I] loads the register block, or faults. -/
theorem blockLoadReadsV0ToVx : Obligations.BlockLoadReadsV0ToVx := by
  intro s x
  have hx := x.isLt
  rcases exec_ldVxMem_cases x s with ⟨hout, e⟩ | ⟨hin, e⟩
  · exact ⟨fun h => absurd hout (by omega), fun _ => e⟩
  · refine ⟨fun _ => ⟨_, e, fun r hr => ?_, fun r hr => ?_, ?_, ?_, ?_⟩, fun h => absurd hin (by omega)⟩
    · rw [State.advance_reg, State.setRegBlock_reg_of_lt_length _ (by rw [State.readBytes_length]; omega)
        (by rw [State.readBytes_length]; omega), State.readBytes_getElem]
    · rw [State.advance_reg, State.setRegBlock_reg_of_length_le _ (by rw [State.readBytes_length]; omega)]
    · rw [State.setRegBlock_eq]
      rfl
    · rw [State.setRegBlock_eq]
      rfl
    · rw [State.setRegBlock_eq]
      exact fun _ => rfl

/-- Settles O40: the bytes the load reads are those the store wrote. -/
theorem blockLoadUndoesBlockStore : Obligations.BlockLoadUndoesBlockStore := by
  intro s t u x hin hs hI hmem hfont
  obtain ⟨t', ht', hstored, -⟩ := (blockStoreWritesV0ToVx s x).1 hin
  obtain rfl := Host.Outcome.next.inj (ht'.symm.trans hs)
  obtain ⟨w, hw, hloaded, -⟩ := (blockLoadReadsV0ToVx u x).1 (by rwa [hI])
  refine ⟨w, hw, fun r hr => ?_⟩
  rw [hloaded r hr, hI, State.readByte_congr hmem hfont, hstored r hr]

/-! ## Memory as plain storage -/

/-- Settles O58: a read after a write, the canonical form, and a write of the reset contents, which lists nothing. -/
theorem memoryReadsWhatWasLastWritten : Obligations.MemoryReadsWhatWasLastWritten := by
  refine fun s a k b => ⟨s.writeByte_readByte a k b, fun hwf ha => State.writeByte_wf hwf ha b, fun hmem => ?_⟩
  have hread : s.readByte a = Memory.unlisted s.font a := by rw [State.readByte, hmem]; rfl
  rw [State.writeByte_mem, hread, State.writeByte_font, if_pos rfl, State.writeByte_mem, hmem]
  split
  · rfl
  · exact if_pos rfl

end Sys2Proof.Machine
end

section
/-! SUPPORT. The input latch and the timers (44_input_timers.md). -/

namespace Sys2Proof.Machine

/-- Settles O45: SKP and SKNP are each one conditional skip on `is_pressed`. -/
theorem keySkipsTestTheLatch : Obligations.KeySkipsTestTheLatch := by
  intro s x
  refine ⟨⟨_, rfl, s.skipIf_onlyPc _, ?_⟩, ⟨_, rfl, s.skipIf_onlyPc _, ?_⟩⟩
  · simp only [State.skipIf_pc, State.isPressed_iff]
  · simp only [State.skipIf_pc, Bool.not_eq_true', ← Bool.not_eq_true, State.isPressed_iff, ite_not]

/-- Settles O46: LD Vx, K leaves the state alone, or assigns the index of the lowest held key. -/
theorem keyWaitTakesTheLowestKey : Obligations.KeyWaitTakesTheLowestKey := by
  intro s x
  have hany : s.anyPressed = true ↔ s.keys ≠ 0 := bne_iff_ne
  refine ⟨fun h => if_neg (fun hp => hany.mp hp h), fun h => ?_⟩
  obtain ⟨hlt, hheld, hlow⟩ := s.lowestPressed_spec (hany.mpr h)
  obtain ⟨t, ht, hreg, hpc, honly⟩ := exec_assign (i := .ldVxK x) (if_pos (hany.mpr h))
  have hindex : (t.reg x).toNat = s.lowestPressed := by
    rw [hreg, BitVec.toNat_ofNat]
    omega
  refine ⟨t, ht, ?_, ?_, ?_, hpc, honly⟩
  · omega
  · rwa [hindex]
  · rwa [hindex]

/-- Settles O47: each transfer is one copy. -/
theorem timerTransfersAreDirect : Obligations.TimerTransfersAreDirect := by
  intro s x
  refine ⟨decode_encode (.ldVxDt x) rfl, decode_encode (.ldDtVx x) rfl, decode_encode (.ldStVx x) rfl, exec_assign rfl,
    ⟨_, rfl, rfl, rfl, rfl, fun _ => rfl, fun hrun => ?_⟩, ⟨_, rfl, rfl, rfl, rfl, fun _ => rfl, bne_iff_ne⟩⟩
  rw [State.timerTick_running hrun]
  exact timer_tick_toNat (s.reg x)

end Sys2Proof.Machine
end

section
/-! SUPPORT. DRW (43_display.md R112 to R116): what one draw and a second one do to the pixels and the flag, and the
statements. -/

namespace Sys2Proof.Machine

/-! ## Pixels -/

theorem Framebuffer.pixel_congr (fb : Framebuffer) {x x' y y' : Nat} (hx : x % 64 = x' % 64) (hy : y % 32 = y' % 32) :
    Framebuffer.pixel fb x y = Framebuffer.pixel fb x' y' := by
  rw [← Framebuffer.pixel_mod, hx, hy, Framebuffer.pixel_mod]

/-- Framebuffers with the same pixels are the same. -/
theorem Framebuffer.eq_of_pixel {fb fb' : Framebuffer}
    (h : ∀ px py, Framebuffer.pixel fb px py = Framebuffer.pixel fb' px py) : fb = fb' := by
  refine Vector.ext fun y hy => Vector.ext fun x hx => ?_
  rw [← Framebuffer.pixel_eq fb hx hy, ← Framebuffer.pixel_eq fb' hx hy, h]

section
variable {fb : Framebuffer} {x0 y0 : Nat} {rows : List Byte} (hl : rows.length ≤ 32) {px py : Nat}
include hl

/-- A pixel a set bit of the sprite lands on is inverted. -/
theorem Framebuffer.blit_pixel_of_covers (hc : spriteCovers x0 y0 rows px py) :
    Framebuffer.pixel (Framebuffer.blit fb x0 y0 rows).1 px py = !Framebuffer.pixel fb px py := by
  have h := Framebuffer.blit_pixel fb x0 y0 rows hl px py
  rw [Bool.eq_iff_iff, h]
  simp [hc]

/-- Every other pixel is left alone. -/
theorem Framebuffer.blit_pixel_of_not_covers (hc : ¬ spriteCovers x0 y0 rows px py) :
    Framebuffer.pixel (Framebuffer.blit fb x0 y0 rows).1 px py = Framebuffer.pixel fb px py := by
  have h := Framebuffer.blit_pixel fb x0 y0 rows hl px py
  rw [Bool.eq_iff_iff, h]
  simp [hc]

theorem Framebuffer.blit_pixel_ne_iff :
    Framebuffer.pixel (Framebuffer.blit fb x0 y0 rows).1 px py ≠ Framebuffer.pixel fb px py ↔
      spriteCovers x0 y0 rows px py := by
  by_cases hc : spriteCovers x0 y0 rows px py
  · simp [Framebuffer.blit_pixel_of_covers hl hc, hc]
  · simp [Framebuffer.blit_pixel_of_not_covers hl hc, hc]

/-- A blit done twice restores the framebuffer (43_display.md R115). -/
theorem Framebuffer.blit_blit :
    (Framebuffer.blit (Framebuffer.blit fb x0 y0 rows).1 x0 y0 rows).1 = fb := by
  refine Framebuffer.eq_of_pixel fun px py => ?_
  by_cases hc : spriteCovers x0 y0 rows px py
  · rw [Framebuffer.blit_pixel_of_covers hl hc, Framebuffer.blit_pixel_of_covers hl hc, Bool.not_not]
  · rw [Framebuffer.blit_pixel_of_not_covers hl hc, Framebuffer.blit_pixel_of_not_covers hl hc]

/-- The second of two blits hits iff the sprite lands on a pixel that was off before the first (log 9). -/
theorem Framebuffer.blit_blit_hit :
    (Framebuffer.blit (Framebuffer.blit fb x0 y0 rows).1 x0 y0 rows).2 = true ↔
      ∃ px py, spriteCovers x0 y0 rows px py ∧ Framebuffer.pixel fb px py = false := by
  rw [Framebuffer.blit_hit _ x0 y0 rows hl]
  refine exists_congr fun px => exists_congr fun py => and_congr_right fun hc => ?_
  rw [Framebuffer.blit_pixel_of_covers hl hc, Bool.not_eq_true']

/-- A blit hits iff some pixel goes from on to off (43_display.md R113). -/
theorem Framebuffer.blit_hit_iff_turned_off :
    (Framebuffer.blit fb x0 y0 rows).2 = true ↔ ∃ px py, ∃ (hx : px < 64) (hy : py < 32),
      fb[py][px] = true ∧ (Framebuffer.blit fb x0 y0 rows).1[py][px] = false := by
  rw [Framebuffer.blit_hit fb x0 y0 rows hl]
  constructor
  · rintro ⟨px, py, hc, hon⟩
    have hx : px % 64 < 64 := Nat.mod_lt _ (by decide)
    have hy : py % 32 < 32 := Nat.mod_lt _ (by decide)
    refine ⟨px % 64, py % 32, hx, hy, ?_, ?_⟩
    · rwa [← Framebuffer.pixel_eq _ hx hy, Framebuffer.pixel_mod]
    · rw [← Framebuffer.pixel_eq _ hx hy, Framebuffer.pixel_mod, Framebuffer.blit_pixel_of_covers hl hc, hon]
      rfl
  · rintro ⟨px, py, hx, hy, hon, hoff⟩
    rw [← Framebuffer.pixel_eq _ hx hy] at hon hoff
    exact ⟨px, py, (Framebuffer.blit_pixel_ne_iff hl).mp (by rw [hon, hoff]; decide), hon⟩

end

/-! ## Sprites read from memory -/

/-- Whether bit `c` from the left of row `r` of the sprite at `a` is set (43_display.md R112). -/
def State.spriteBitAt (s : State) (a r c : Nat) : Prop := (s.readByte (a + r)).getLsbD (7 - c) = true

theorem spriteCovers_readBytes (s : State) (a n x0 y0 px py : Nat) :
    spriteCovers x0 y0 (s.readBytes a n) px py ↔
      ∃ r c, r < n ∧ c < 8 ∧ s.spriteBitAt a r c ∧ (x0 + c) % 64 = px % 64 ∧ (y0 + r) % 32 = py % 32 := by
  simp only [spriteCovers, State.readBytes_getElem, State.readBytes_length, spriteBit, State.spriteBitAt]
  constructor
  · rintro ⟨r, hr, c, h⟩
    exact ⟨r, c, hr, h⟩
  · rintro ⟨r, c, hr, h⟩
    exact ⟨r, hr, c, h⟩

/-- Some pixel a sprite lands on has the value `b`, pixel by pixel and bit by bit. -/
theorem exists_spriteCovers_readBytes (s : State) (fb : Framebuffer) (a n x0 y0 : Nat) (b : Bool) :
    (∃ px py, spriteCovers x0 y0 (s.readBytes a n) px py ∧ Framebuffer.pixel fb px py = b) ↔
      ∃ r c, r < n ∧ c < 8 ∧ s.spriteBitAt a r c ∧ Framebuffer.pixel fb (x0 + c) (y0 + r) = b := by
  simp only [spriteCovers_readBytes]
  constructor
  · rintro ⟨px, py, ⟨r, c, hr, hc, hbit, hx, hy⟩, hp⟩
    exact ⟨r, c, hr, hc, hbit, (fb.pixel_congr hx hy).trans hp⟩
  · rintro ⟨r, c, hr, hc, hbit, hp⟩
    exact ⟨x0 + c, y0 + r, ⟨r, c, hr, hc, hbit, rfl, rfl⟩, hp⟩

theorem State.readBytes_congr {s t : State} (hmem : t.mem = s.mem) (hfont : t.font = s.font) (a n : Nat) :
    t.readBytes a n = s.readBytes a n := by
  induction n generalizing a with
  | zero => rfl
  | succ n ih => rw [State.readBytes, State.readBytes, State.readByte_congr hmem hfont, ih]

/-- A sprite has at most 15 rows. -/
theorem State.readBytes_rows_le (s : State) (a : Nat) (n : Nibble) : (s.readBytes a n.toNat).length ≤ 32 := by
  have := n.isLt
  rw [State.readBytes_length]
  omega

/-! ## The statements -/

theorem flagByte_eq_one_iff (f : Bool) : flagByte f = 1 ↔ f = true := by
  cases f <;> decide

/-- The framebuffer and the flag DRW leaves (43_display.md R115). -/
def State.drawn (s : State) (x y n : Nibble) : Framebuffer × Bool :=
  Framebuffer.blit s.fb (s.reg x).toNat (s.reg y).toNat (s.readBytes s.I.toNat n.toNat)

theorem exec_drw_inRange {x y n : Nibble} {s : State} (h : n = 0 ∨ s.I.toNat + n.toNat - 1 ≤ 0xFFF) :
    exec (.drw x y n) s = .next (({ s with fb := (s.drawn x y n).1 } : State).setFlag (s.drawn x y n).2).advance := by
  rcases exec_drw_cases x y n s with ⟨hpos, hout, -⟩ | ⟨-, p, rfl, e⟩
  · rcases h with rfl | h
    · exact absurd hpos (by decide)
    · omega
  · exact e

/-- Settles O42: the blit inverts the covered pixels, and hits where one of them was on. -/
theorem drwXorsTheSpriteAndReportsCollision : Obligations.DrwXorsTheSpriteAndReportsCollision := by
  intro s x y n
  have hl := s.readBytes_rows_le s.I.toNat n
  constructor
  · intro hin
    refine ⟨_, exec_drw_inRange hin, ?pixels, ?_, ?_, ?regs, rfl, rfl, fun _ => rfl⟩
    case pixels =>
      intro px py hx hy
      rw [← Framebuffer.pixel_eq s.fb hx hy, ← Framebuffer.pixel_eq _ hx hy]
      refine (Framebuffer.blit_pixel_ne_iff hl).trans ?_
      rw [spriteCovers_readBytes, Nat.mod_eq_of_lt hx, Nat.mod_eq_of_lt hy]
      rfl
    case regs =>
      intro r hr
      rw [State.advance_reg, State.setFlag_reg, if_neg hr]
      rfl
    · rw [State.advance_reg, State.setFlag_reg, if_pos rfl]
      exact flagByte_cases _
    · rw [State.advance_reg, State.setFlag_reg, if_pos rfl, flagByte_eq_one_iff]
      exact Framebuffer.blit_hit_iff_turned_off hl
  · intro hn hout
    rcases exec_drw_cases x y n s with ⟨-, -, e⟩ | ⟨hin, -⟩
    · exact e
    · bv_omega

/-- A second DRW, its coordinates not the flag register, blits the same sprite at the same place. -/
theorem State.drawn_drawn {s t : State} {x y n : Nibble} (hx : x ≠ 0xF) (hy : y ≠ 0xF)
    (ht : t = (({ s with fb := (s.drawn x y n).1 } : State).setFlag (s.drawn x y n).2).advance) :
    t.drawn x y n =
      Framebuffer.blit (s.drawn x y n).1 (s.reg x).toNat (s.reg y).toNat (s.readBytes s.I.toNat n.toNat) := by
  have hreg (r : Nibble) (hr : r ≠ 0xF) : t.reg r = s.reg r := by
    rw [ht, State.advance_reg, State.setFlag_reg, if_neg hr]
    rfl
  have hrows : t.readBytes t.I.toNat n.toNat = s.readBytes s.I.toNat n.toNat := by
    rw [ht]
    exact State.readBytes_congr (by rfl) (by rfl) _ _
  rw [State.drawn, hreg x hx, hreg y hy, hrows, ht]
  rfl

/-- Settles O43: the second blit undoes the first, and hits where the sprite lands on a pixel that was off. -/
theorem drawingTwiceRestoresTheFramebuffer : Obligations.DrawingTwiceRestoresTheFramebuffer := by
  intro s t x y n hx hy hin ht
  have hl := s.readBytes_rows_le s.I.toNat n
  have heq := Host.Outcome.next.inj (ht.symm.trans (exec_drw_inRange hin))
  have hdrawn := State.drawn_drawn hx hy heq
  have hin' : n = 0 ∨ t.I.toNat + n.toNat - 1 ≤ 0xFFF := by rwa [heq]
  have hhit : (t.drawn x y n).2 = true ↔ ∃ r c, r < n.toNat ∧ c < 8 ∧ s.spriteBitAt s.I.toNat r c ∧
      Framebuffer.pixel s.fb ((s.reg x).toNat + c) ((s.reg y).toNat + r) = false := by
    rw [hdrawn, ← exists_spriteCovers_readBytes]
    exact Framebuffer.blit_blit_hit hl
  refine ⟨_, exec_drw_inRange hin', ?restored, ?hit, fun hoff => ?cleared⟩
  case restored =>
    change (t.drawn x y n).1 = s.fb
    rw [hdrawn]
    exact Framebuffer.blit_blit hl
  all_goals rw [State.advance_reg, State.setFlag_reg, if_pos rfl, flagByte_eq_one_iff, hhit]
  case hit => rfl
  case cleared =>
    constructor
    · rintro ⟨r, c, hr, -, hbit, -⟩
      exact ⟨r, 7 - c, hr, by omega, hbit⟩
    · rintro ⟨r, k, hr, hk, hbit⟩
      refine ⟨r, 7 - k, hr, by omega, ?_, hoff _ _⟩
      rwa [State.spriteBitAt, Nat.sub_sub_self (by omega)]

/-- Settles O44: with no row the blit does nothing and the flag is 0. -/
theorem drwOfNoRowsOnlyClearsTheFlag : Obligations.DrwOfNoRowsOnlyClearsTheFlag := fun s x y =>
  ⟨_, (rfl : exec (.drw x y 0) s = .next (s.setFlag false).advance), rfl, s.setReg_reg_self _ _, rfl,
    s.setReg_advance_onlyRegPc _ _⟩

end Sys2Proof.Machine
end
